-- ==== Sys2Proof/Word.lean ====
section
/-! DEFINITION. The machine word. Every register, every command word and the data of every bus access is 32 bits
wide (00_scope.md R10, 30_encoding.md R110, 20_memory.md R80). -/

namespace Sys2Proof

/-- A 32-bit register value, command word or bus datum, bit 0 least significant (R12). -/
abbrev Word := BitVec 32

end Sys2Proof
end

