-- ==== Sys2Proof/Syntax.lean ====
section
/-! DEFINITION. The command set (30_encoding.md R114): one constructor of `Instr` per row of the opcode map, with the
operand fields of its format (R111, R112). Operands that come from ARG0 to ARG4 are not part of the word (R110). -/

namespace Sys2Proof

/-- The 21 commands of R114. A field is the unsigned integer the encoding holds (R112); its range is checked by
`WellFormed`, and a command's own range check (R121) is part of its meaning. -/
inductive Instr where
  | nop
  | caInit (len rule : Nat)
  | caSetRule (rule : Nat)
  | caSetState
  | caRandomize
  | caResetState
  | caAdvance
  | lfsrInit (nbits : Nat)
  | lfsrSetRule
  | lfsrSetState
  | lfsrRandomize
  | lfsrResetState
  | lfsrAdvance
  | selChoose (n k : Nat)
  | selCombination (n k : Nat)
  | pendInit
  | pendSetState
  | pendSetDt
  | pendRandomize
  | pendAdvance
  | pendDerivs
deriving DecidableEq, Repr

/-- The five formats of R111. -/
inductive Format where
  | f0
  | fr
  | fc
  | fb
  | fk
deriving DecidableEq, Repr

/-- The 21 assigned opcodes of R114, by mnemonic. -/
inductive Opcode where
  | nop
  | caInit
  | caSetRule
  | caSetState
  | caRandomize
  | caResetState
  | caAdvance
  | lfsrInit
  | lfsrSetRule
  | lfsrSetState
  | lfsrRandomize
  | lfsrResetState
  | lfsrAdvance
  | selChoose
  | selCombination
  | pendInit
  | pendSetState
  | pendSetDt
  | pendRandomize
  | pendAdvance
  | pendDerivs
deriving DecidableEq, Repr

/-- Why a word is no command (R116). Both give ILLEGAL_COMMAND. -/
inductive DecodeError where
  /-- Bits 31:24 are none of the 21 opcodes (R117). -/
  | unassignedOpcode (opc : Nat)
  /-- The opcode is assigned and a reserved bit of its format is 1 (R117). -/
  | reservedBit (opcode : Opcode)
deriving DecidableEq, Repr

end Sys2Proof
end

