-- ==== Sys2Proof/WellFormed.lean ====
section
/-! DEFINITION. The operand ranges the encoding admits (30_encoding.md R112): a field of `b` bits holds 0 to 2^b - 1.
What a command refuses inside these ranges is its meaning's business (R121). -/

namespace Sys2Proof

/-- Every field of the instruction fits its place in the command word (R111, R112). -/
abbrev WellFormed : Instr → Prop
  | .caInit len rule => len < 64 ∧ rule < 256
  | .caSetRule rule => rule < 256
  | .lfsrInit nbits => nbits < 64
  | .selChoose n k => n < 64 ∧ k < 64
  | .selCombination n k => n < 64 ∧ k < 64
  | .nop | .caSetState | .caRandomize | .caResetState | .caAdvance => True
  | .lfsrSetRule | .lfsrSetState | .lfsrRandomize | .lfsrResetState | .lfsrAdvance => True
  | .pendInit | .pendSetState | .pendSetDt | .pendRandomize | .pendAdvance | .pendDerivs => True

end Sys2Proof
end

