-- ==== Sys2Proof/Decode.lean ====
section
/-! DEFINITION. Command encoding (30_encoding.md): the decoder of R116, total on every 32-bit word and refusing by
name, and the encoder of R119, each written from the opcode map R114. A command word is no sequence of bytes: the block
has no byte order (20_memory.md R85), so the decoder takes the word the CMD write carries (log 9). -/

namespace Sys2Proof

/-- `v[hi:lo]` as an unsigned integer (R12). -/
def bits (v : Word) (hi lo : Nat) : Nat := v.toNat / 2 ^ lo % 2 ^ (hi - lo + 1)

/-- The bits a word of the format must have fixed: the opcode and the reserved bits (R111, R114). -/
def Format.mask : Format → Word
  | .f0 => 0xFFFFFFFF
  | .fr => 0xFFFF00FF
  | .fc => 0xFFFF00C0
  | .fb => 0xFFFFFFC0
  | .fk => 0xFFFFC0C0

/-- OPC, bits 31:24 of the word (R114). -/
def Opcode.code : Opcode → Nat
  | .nop => 0x00
  | .caInit => 0x10
  | .caSetRule => 0x11
  | .caSetState => 0x12
  | .caRandomize => 0x13
  | .caResetState => 0x14
  | .caAdvance => 0x15
  | .lfsrInit => 0x20
  | .lfsrSetRule => 0x21
  | .lfsrSetState => 0x22
  | .lfsrRandomize => 0x23
  | .lfsrResetState => 0x24
  | .lfsrAdvance => 0x25
  | .selChoose => 0x30
  | .selCombination => 0x31
  | .pendInit => 0x40
  | .pendSetState => 0x41
  | .pendSetDt => 0x42
  | .pendRandomize => 0x43
  | .pendAdvance => 0x44
  | .pendDerivs => 0x45

/-- The format that the opcode selects (R110, R114). -/
def Opcode.format : Opcode → Format
  | .nop => .f0
  | .caInit => .fc
  | .caSetRule => .fr
  | .caSetState => .f0
  | .caRandomize => .f0
  | .caResetState => .f0
  | .caAdvance => .f0
  | .lfsrInit => .fb
  | .lfsrSetRule => .f0
  | .lfsrSetState => .f0
  | .lfsrRandomize => .f0
  | .lfsrResetState => .f0
  | .lfsrAdvance => .f0
  | .selChoose => .fk
  | .selCombination => .fk
  | .pendInit => .f0
  | .pendSetState => .f0
  | .pendSetDt => .f0
  | .pendRandomize => .f0
  | .pendAdvance => .f0
  | .pendDerivs => .f0

/-- The assigned opcode of a value of bits 31:24, or none for the 235 unassigned ones (R114, R117). -/
def Opcode.ofCode? : Nat → Option Opcode
  | 0x00 => some .nop
  | 0x10 => some .caInit
  | 0x11 => some .caSetRule
  | 0x12 => some .caSetState
  | 0x13 => some .caRandomize
  | 0x14 => some .caResetState
  | 0x15 => some .caAdvance
  | 0x20 => some .lfsrInit
  | 0x21 => some .lfsrSetRule
  | 0x22 => some .lfsrSetState
  | 0x23 => some .lfsrRandomize
  | 0x24 => some .lfsrResetState
  | 0x25 => some .lfsrAdvance
  | 0x30 => some .selChoose
  | 0x31 => some .selCombination
  | 0x40 => some .pendInit
  | 0x41 => some .pendSetState
  | 0x42 => some .pendSetDt
  | 0x43 => some .pendRandomize
  | 0x44 => some .pendAdvance
  | 0x45 => some .pendDerivs
  | _ => none

/-- `match_opc` of R114: `OPC << 24`. -/
def Opcode.matchWord (o : Opcode) : Word := BitVec.ofNat 32 o.code <<< 24

/-- The command the opcode dispatches to, with its fields read from the word (R112, R116). -/
def Opcode.instr (o : Opcode) (w : Word) : Instr :=
  match o with
  | .nop => .nop
  | .caInit => .caInit (bits w 5 0) (bits w 15 8)
  | .caSetRule => .caSetRule (bits w 15 8)
  | .caSetState => .caSetState
  | .caRandomize => .caRandomize
  | .caResetState => .caResetState
  | .caAdvance => .caAdvance
  | .lfsrInit => .lfsrInit (bits w 5 0)
  | .lfsrSetRule => .lfsrSetRule
  | .lfsrSetState => .lfsrSetState
  | .lfsrRandomize => .lfsrRandomize
  | .lfsrResetState => .lfsrResetState
  | .lfsrAdvance => .lfsrAdvance
  | .selChoose => .selChoose (bits w 13 8) (bits w 5 0)
  | .selCombination => .selCombination (bits w 13 8) (bits w 5 0)
  | .pendInit => .pendInit
  | .pendSetState => .pendSetState
  | .pendSetDt => .pendSetDt
  | .pendRandomize => .pendRandomize
  | .pendAdvance => .pendAdvance
  | .pendDerivs => .pendDerivs

/-- The decode procedure of R116. Each error of it is ILLEGAL_COMMAND (R117). -/
def decode (w : Word) : Except DecodeError Instr :=
  match Opcode.ofCode? (bits w 31 24) with
  | none => .error (.unassignedOpcode (bits w 31 24))
  | some o => if w &&& o.format.mask = o.matchWord then .ok (o.instr w) else .error (.reservedBit o)

/-- The opcode of a command (R114). -/
def Instr.opcode : Instr → Opcode
  | .nop => .nop
  | .caInit _ _ => .caInit
  | .caSetRule _ => .caSetRule
  | .caSetState => .caSetState
  | .caRandomize => .caRandomize
  | .caResetState => .caResetState
  | .caAdvance => .caAdvance
  | .lfsrInit _ => .lfsrInit
  | .lfsrSetRule => .lfsrSetRule
  | .lfsrSetState => .lfsrSetState
  | .lfsrRandomize => .lfsrRandomize
  | .lfsrResetState => .lfsrResetState
  | .lfsrAdvance => .lfsrAdvance
  | .selChoose _ _ => .selChoose
  | .selCombination _ _ => .selCombination
  | .pendInit => .pendInit
  | .pendSetState => .pendSetState
  | .pendSetDt => .pendSetDt
  | .pendRandomize => .pendRandomize
  | .pendAdvance => .pendAdvance
  | .pendDerivs => .pendDerivs

/-- The field bits of a command's word, each field where its format puts it (R111, R119). -/
def Instr.fieldBits : Instr → Word
  | .caInit len rule => BitVec.ofNat 32 rule <<< 8 ||| BitVec.ofNat 32 len
  | .caSetRule rule => BitVec.ofNat 32 rule <<< 8
  | .lfsrInit nbits => BitVec.ofNat 32 nbits
  | .selChoose n k => BitVec.ofNat 32 n <<< 8 ||| BitVec.ofNat 32 k
  | .selCombination n k => BitVec.ofNat 32 n <<< 8 ||| BitVec.ofNat 32 k
  | .nop | .caSetState | .caRandomize | .caResetState | .caAdvance => 0
  | .lfsrSetRule | .lfsrSetState | .lfsrRandomize | .lfsrResetState | .lfsrAdvance => 0
  | .pendInit | .pendSetState | .pendSetDt | .pendRandomize | .pendAdvance | .pendDerivs => 0

/-- The word of a well-formed command (R119): `(OPC << 24) | fields`. -/
def encode (i : Instr) : Word := i.opcode.matchWord ||| i.fieldBits

/-- The word of `nbits` table bits: R110 gives a command exactly 32 bits, so a shorter row is filled with zeros above. -/
def tableWord (nbits w : Nat) : Word := BitVec.ofNat 32 (w % 2 ^ nbits)

/-- The command the decoder reads from `nbits` bits `w`, numbered as the opcode table numbers them. -/
def decodeTableWord (nbits w : Nat) : Option Instr := (decode (tableWord nbits w)).toOption

end Sys2Proof
end

