-- ==== Sys2Proof/Config.lean ====
section
/-! DEFINITION. What the block fixes (00_scope.md R10, R11) and the values the spec leaves open, which are opaque:
no proof can learn anything about them. -/

namespace Sys2Proof

/-- `CA_LMAX` (R10, D12): the largest CA length. -/
def Config.caLMax : Nat := 32

/-- `LFSR_NMAX` (R10, D12): the largest LFSR width. -/
def Config.lfsrNMax : Nat := 32

/-- `SEL_NMAX` (R10, D22): the largest n and k of the selector. -/
def Config.selNMax : Nat := 32

/-- The gravitational constant in Q8.24 as an exact integer, and the content of the constant register PEND_G
(R10, R53, R230(d)). -/
def Config.gravity : Int := 164416717

/-- PEND_G as its register reads (R53). -/
def Config.pendG : Word := 0x09CCCCCD

/-- FREE VALUE (log 3): the entropy word of draw number `i` where the entropy list of the state names none.
R17: "Each draw is a fresh free input: no rule relates one draw to another". -/
opaque Config.entropyWord : Nat → Word

/-- FREE VALUE (log 7): the bus response (error line, data lines) of the CMD write that a reset abandons, indexed by
how many responses came before it. R341: it "completes with any response the platform bus allows". -/
opaque Config.abandonedResponse : Nat → Bool × Word

/-- OPEN PARAMETER (log 8): `EDB_BASE`, the platform address of the register window (R10, R81, D2). -/
opaque Config.edbBase : Nat

end Sys2Proof
end

