-- ==== Sys2Proof/Machine/State.lean ====
section
/-! DEFINITION. The state of the block (10_state.md): one field per register of R56, grouped by the unit that owns it
(00_scope.md R1, R2), and the model's own fields that stand for its ports (20_memory.md R80). CMD holds no state (R32)
and PEND_G is a constant (R53), so neither has a field. -/

namespace Sys2Proof.Machine

/-- Nothing in this block stops the machine with a fault: an error is a result code and the block takes the next
command normally (60_exceptions.md R307), and a refused access is a bus response (R316). The type has no constructor,
so no step can answer `fault` (log 12). -/
inductive Fault where
deriving DecidableEq, Repr

/-- Why a step has no meaning. -/
inductive Refusal where
  /-- Raised only by an arm of `exec` whose command is not modelled, under the command's mnemonic. Safe: the model
  stops where the block goes on. No arm raises it now. -/
  | notModelled (mnemonic : String)
deriving DecidableEq, Repr

/-- One bus request (20_memory.md R80): write or read, an 8-bit byte offset, four byte enables, the write data. -/
structure Access where
  write : Bool
  off : BitVec 8
  be : BitVec 4
  data : Word
deriving DecidableEq, Repr

/-- One bus response (R80, R84): what completes an access. -/
inductive Response where
  /-- An admitted read returns the register's value (R82). -/
  | readOk (v : Word)
  /-- An admitted write is complete (R88, R89). -/
  | writeOk
  /-- A refused read: the error line is set and the data lines hold `v`, which is 0 (R84). -/
  | readError (v : Word)
  /-- A refused write: the error line is set (R84). -/
  | writeError
  /-- The CMD write that a reset abandoned (R341): the error line and the data lines are free values. -/
  | abandoned (error : Bool) (v : Word)
deriving DecidableEq, Repr

/-- What reaches the block from outside, one item per step (00_scope.md R8). -/
inductive Event where
  /-- A bus request of some host context (R97). -/
  | access (a : Access)
  /-- `rst` is high at a rising edge of `clk` while no command runs (R340). -/
  | reset
  /-- `rst` is asserted while the command that an admitted write of `w` to CMD started is running (R341), after it took
  `taken` entropy words, or as many as it takes in all if that is less. -/
  | resetDuring (w : Word) (taken : Nat)
deriving DecidableEq, Repr

/-- The CA unit (10_state.md R36, R37). -/
structure CaUnit where
  /-- CA_STATE: bit L - 1 - i is cell i. -/
  state : Word
  /-- CA_CFG: LEN in 5:0, RULE in 15:8. -/
  cfg : Word
deriving DecidableEq, Repr

/-- The LFSR unit (R39 to R43). -/
structure LfsrUnit where
  /-- LFSR_STATE. -/
  state : Word
  /-- LFSR_CFG: NBITS in 5:0. -/
  cfg : Word
  /-- LFSR_RULE. -/
  rule : Word
  /-- LFSR_TAPS: bit t is 1 when tap t is active. -/
  taps : Word
  /-- LFSR_SAVED. -/
  saved : Word
deriving DecidableEq, Repr

/-- The SEL unit's result registers (R44 to R48). -/
structure SelUnit where
  /-- SEL_CHOOSE. -/
  choose : Word
  /-- SEL_CFG: K in 5:0, N in 13:8. -/
  cfg : Word
  /-- SEL_M. -/
  m : Word
  /-- SEL_MASK. -/
  mask : Word
  /-- SEL_IDX0 to SEL_IDX7: entry e of the sequence is byte e mod 4 of SEL_IDX⌊e/4⌋. -/
  idx0 : Word
  idx1 : Word
  idx2 : Word
  idx3 : Word
  idx4 : Word
  idx5 : Word
  idx6 : Word
  idx7 : Word
deriving DecidableEq, Repr

/-- The PEND unit (R49 to R55). -/
structure PendUnit where
  /-- PEND_TH1, PEND_TH2: binary angles. PEND_W1, PEND_W2: Q8.24. -/
  th1 : Word
  w1 : Word
  th2 : Word
  w2 : Word
  /-- PEND_L1, PEND_L2, PEND_M1, PEND_M2, PEND_DT: Q8.24. -/
  l1 : Word
  l2 : Word
  m1 : Word
  m2 : Word
  dt : Word
  /-- OUT_T1 to OUT_Y2. -/
  outT1 : Word
  outX1 : Word
  outY1 : Word
  outT2 : Word
  outX2 : Word
  outY2 : Word
  /-- DRV_DTH1 to DRV_DW2. -/
  drvDth1 : Word
  drvDw1 : Word
  drvDth2 : Word
  drvDw2 : Word
deriving DecidableEq, Repr

/-- The whole machine. The first eleven fields are the registers of R56. The last four are the model's own: they are
the inputs that have not arrived yet and the outputs given so far (log 1, 2, 3). -/
structure State where
  /-- ARG0 to ARG4 (R31). -/
  arg0 : Word
  arg1 : Word
  arg2 : Word
  arg3 : Word
  arg4 : Word
  /-- STATUS: RESULT in 3:0 (R33). -/
  status : Word
  /-- ERRFLAGS: bit c for error code c (R34). -/
  errflags : Word
  ca : CaUnit
  lfsr : LfsrUnit
  sel : SelUnit
  pend : PendUnit
  /-- The entropy words the port will offer, oldest first (R98). -/
  entropy : List Word
  /-- How many free words were taken after the listed ones (R17). -/
  drawn : Nat
  /-- The bus requests and resets still to arrive, oldest first (R88). -/
  events : List Event
  /-- The bus responses returned so far, oldest first (R9). -/
  responses : List Response
deriving DecidableEq, Repr

/-- CA unit after reset (R340(c)). -/
def CaUnit.reset : CaUnit := { state := 0, cfg := 0x00000010 }

/-- LFSR unit after reset (R340(d)). -/
def LfsrUnit.reset : LfsrUnit := { state := 1, cfg := 8, rule := 1, taps := 0x2, saved := 1 }

/-- SEL unit after reset (R340(e)). -/
def SelUnit.reset : SelUnit :=
  { choose := 0, cfg := 0, m := 0, mask := 0,
    idx0 := 0xFFFFFFFF, idx1 := 0xFFFFFFFF, idx2 := 0xFFFFFFFF, idx3 := 0xFFFFFFFF,
    idx4 := 0xFFFFFFFF, idx5 := 0xFFFFFFFF, idx6 := 0xFFFFFFFF, idx7 := 0xFFFFFFFF }

/-- PEND unit after reset (R340(f) to (i)). -/
def PendUnit.reset : PendUnit :=
  { th1 := 0, w1 := 0, th2 := 0, w2 := 0,
    l1 := 0x01000000, l2 := 0x01000000, m1 := 0x01000000, m2 := 0x01000000, dt := 0x00028F5C,
    outT1 := 0, outX1 := 0, outY1 := 0, outT2 := 0, outX2 := 0, outY2 := 0,
    drvDth1 := 0, drvDw1 := 0, drvDth2 := 0, drvDw2 := 0 }

/-- The block right after reset (70_reset_and_hazards.md R340), with no access, no reset and no entropy word pending
and no response given (log 1, 2, 3). -/
def State.reset : State :=
  { arg0 := 0, arg1 := 0, arg2 := 0, arg3 := 0, arg4 := 0, status := 0, errflags := 0,
    ca := CaUnit.reset, lfsr := LfsrUnit.reset, sel := SelUnit.reset, pend := PendUnit.reset,
    entropy := [], drawn := 0, events := [], responses := [] }

/-- What a command answers: always a next state in this block. -/
abbrev Answer := Host.Outcome State Fault Refusal

end Sys2Proof.Machine
end

