-- ==== Sys2Proof/Machine/Flags.lean ====
section
/-! DEFINITION. Result codes and error flags: every value STATUS.RESULT takes (60_exceptions.md R301) and every way
ERRFLAGS changes (10_state.md R34). The block has no other flags (R57). -/

namespace Sys2Proof.Machine

/-- The error results of R301. Normal completion, code 0, is `finish`. -/
inductive ErrorCode where
  | configError
  | invalidTap
  | selRange
  | numDegeneracy
  | numOverflow
  | illegalCommand
deriving DecidableEq, Repr

/-- The code an error writes to STATUS.RESULT (R301). -/
def ErrorCode.code : ErrorCode → Nat
  | .configError => 1
  | .invalidTap => 2
  | .selRange => 3
  | .numDegeneracy => 4
  | .numOverflow => 5
  | .illegalCommand => 6

/-- STATUS with RESULT as given and its reserved bits 0 (10_state.md R33). -/
def statusWord (code : Nat) : Word := BitVec.ofNat 32 (code % 16)

/-- STATUS.RESULT (R33). -/
def State.result (s : State) : Nat := s.status.toNat % 16

/-- The ERRFLAGS bit of an error: bit c for code c (10_state.md R34). -/
def ErrorCode.flag (e : ErrorCode) : Word := 1#32 <<< e.code

/-- ERRFLAGS after a command ended with the error: its bit is set, the others stay (R34, R302). -/
def setFlag (flags : Word) (e : ErrorCode) : Word := flags ||| e.flag

/-- ERRFLAGS after a host write: a written 1 clears the bit, a written 0 leaves it (R34). -/
def clearFlags (flags written : Word) : Word := flags &&& ~~~written

end Sys2Proof.Machine
end

