-- ==== Sys2Proof/Machine/Operands.lean ====
section
/-! DEFINITION. Operand forms and field access (00_scope.md R12 to R15, 30_encoding.md R112, R113, 10_state.md R35): the
argument registers, the unsigned and signed readings of a register, the fields of the configuration registers, and a
state register read as a bit sequence. -/

namespace Sys2Proof.Machine

/-- `x[i]`: argument register ARGi (R15, R31). -/
def State.x (s : State) : Fin 5 → Word
  | 0 => s.arg0
  | 1 => s.arg1
  | 2 => s.arg2
  | 3 => s.arg3
  | 4 => s.arg4

/-- `sext_32(v)`: v read as a two's complement integer (R13). -/
def sext32 (v : Word) : Int := v.toInt

/-- `wrap_32(x)`: x modulo 2^32 (R13). -/
def wrap32 (x : Int) : Word := BitVec.ofInt 32 x

/-- `fits_s32(x)`: x lies in -2^31 to 2^31 - 1 (R13). -/
abbrev fitsS32 (x : Int) : Prop := -2147483648 ≤ x ∧ x ≤ 2147483647

/-- `v mod 2^n`: the low n bits of v (40_ca.md R142, 41_lfsr.md R174). -/
def lowBits (v : Word) (n : Nat) : Word := BitVec.ofNat 32 (v.toNat % 2 ^ n)

/-- CA_CFG.LEN (10_state.md R37). -/
def CaUnit.len (c : CaUnit) : Nat := bits c.cfg 5 0

/-- CA_CFG.RULE, which is the rule table: bit c is the entry of neighbourhood code c (R37, R38). -/
def CaUnit.rule (c : CaUnit) : Nat := bits c.cfg 15 8

/-- CA_CFG with LEN and RULE as given and its reserved bits 0 (R37). -/
def caCfgWord (len rule : Nat) : Word := BitVec.ofNat 32 (rule % 256 * 256 + len % 64)

/-- LFSR_CFG.NBITS (R40). -/
def LfsrUnit.nbits (l : LfsrUnit) : Nat := bits l.cfg 5 0

/-- LFSR_CFG with NBITS as given and its reserved bits 0 (R40). -/
def lfsrCfgWord (nbits : Nat) : Word := BitVec.ofNat 32 (nbits % 64)

/-- SEL_CFG.N (R45). -/
def SelUnit.n (u : SelUnit) : Nat := bits u.cfg 13 8

/-- SEL_CFG.K (R45). -/
def SelUnit.k (u : SelUnit) : Nat := bits u.cfg 5 0

/-- SEL_CFG with N and K as given and its reserved bits 0 (R45). -/
def selCfgWord (n k : Nat) : Word := BitVec.ofNat 32 (n % 64 * 256 + k % 64)

/-- Element j of the bit sequence a state register of width w holds, most significant bit first (R35). -/
def seqBit (v : Word) (w j : Nat) : Bool := v.getLsbD (w - 1 - j)

end Sys2Proof.Machine
end

