-- ==== Sys2Proof/Machine/RegisterMap.lean ====
section
/-! DEFINITION. The register map (10_state.md R56): the 47 registers of the window by name, their byte offsets and their
access attributes. The 17 word slots without a name are the unlisted offsets of 20_memory.md R83. -/

namespace Sys2Proof.Machine

/-- The registers of R56. -/
inductive Reg where
  | cmd | status | errflags
  | arg0 | arg1 | arg2 | arg3 | arg4
  | caState | caCfg
  | lfsrState | lfsrCfg | lfsrRule | lfsrTaps | lfsrSaved
  | selChoose | selCfg | selM | selMask
  | selIdx0 | selIdx1 | selIdx2 | selIdx3 | selIdx4 | selIdx5 | selIdx6 | selIdx7
  | pendTh1 | pendW1 | pendTh2 | pendW2 | pendL1 | pendL2 | pendM1 | pendM2 | pendDt | pendG
  | outT1 | outX1 | outY1 | outT2 | outX2 | outY2
  | drvDth1 | drvDw1 | drvDth2 | drvDw2
deriving DecidableEq, Repr

/-- The access attributes of R56. -/
inductive Attr where
  /-- Host writes are ignored. -/
  | readOnly
  | readWrite
  /-- Host reads return 0. -/
  | writeOnly
  /-- A written 1 clears the bit. -/
  | writeOneToClear
deriving DecidableEq, Repr

/-- The byte offset of a register (R56). -/
def Reg.offset : Reg → Nat
  | .cmd => 0x00
  | .status => 0x04
  | .errflags => 0x08
  | .arg0 => 0x10
  | .arg1 => 0x14
  | .arg2 => 0x18
  | .arg3 => 0x1C
  | .arg4 => 0x20
  | .caState => 0x40
  | .caCfg => 0x44
  | .lfsrState => 0x50
  | .lfsrCfg => 0x54
  | .lfsrRule => 0x58
  | .lfsrTaps => 0x5C
  | .lfsrSaved => 0x60
  | .selChoose => 0x70
  | .selCfg => 0x74
  | .selM => 0x78
  | .selMask => 0x7C
  | .selIdx0 => 0x80
  | .selIdx1 => 0x84
  | .selIdx2 => 0x88
  | .selIdx3 => 0x8C
  | .selIdx4 => 0x90
  | .selIdx5 => 0x94
  | .selIdx6 => 0x98
  | .selIdx7 => 0x9C
  | .pendTh1 => 0xA0
  | .pendW1 => 0xA4
  | .pendTh2 => 0xA8
  | .pendW2 => 0xAC
  | .pendL1 => 0xB0
  | .pendL2 => 0xB4
  | .pendM1 => 0xB8
  | .pendM2 => 0xBC
  | .pendDt => 0xC0
  | .pendG => 0xC4
  | .outT1 => 0xC8
  | .outX1 => 0xCC
  | .outY1 => 0xD0
  | .outT2 => 0xD4
  | .outX2 => 0xD8
  | .outY2 => 0xDC
  | .drvDth1 => 0xE0
  | .drvDw1 => 0xE4
  | .drvDth2 => 0xE8
  | .drvDw2 => 0xEC

/-- The access attribute of a register (R56). -/
def Reg.attr : Reg → Attr
  | .cmd => .writeOnly
  | .errflags => .writeOneToClear
  | .arg0 | .arg1 | .arg2 | .arg3 | .arg4 => .readWrite
  | _ => .readOnly

/-- The register at a byte offset of the window, or none where R56 lists none (R83). -/
def Reg.ofOffset? : Nat → Option Reg
  | 0x00 => some .cmd
  | 0x04 => some .status
  | 0x08 => some .errflags
  | 0x10 => some .arg0
  | 0x14 => some .arg1
  | 0x18 => some .arg2
  | 0x1C => some .arg3
  | 0x20 => some .arg4
  | 0x40 => some .caState
  | 0x44 => some .caCfg
  | 0x50 => some .lfsrState
  | 0x54 => some .lfsrCfg
  | 0x58 => some .lfsrRule
  | 0x5C => some .lfsrTaps
  | 0x60 => some .lfsrSaved
  | 0x70 => some .selChoose
  | 0x74 => some .selCfg
  | 0x78 => some .selM
  | 0x7C => some .selMask
  | 0x80 => some .selIdx0
  | 0x84 => some .selIdx1
  | 0x88 => some .selIdx2
  | 0x8C => some .selIdx3
  | 0x90 => some .selIdx4
  | 0x94 => some .selIdx5
  | 0x98 => some .selIdx6
  | 0x9C => some .selIdx7
  | 0xA0 => some .pendTh1
  | 0xA4 => some .pendW1
  | 0xA8 => some .pendTh2
  | 0xAC => some .pendW2
  | 0xB0 => some .pendL1
  | 0xB4 => some .pendL2
  | 0xB8 => some .pendM1
  | 0xBC => some .pendM2
  | 0xC0 => some .pendDt
  | 0xC4 => some .pendG
  | 0xC8 => some .outT1
  | 0xCC => some .outX1
  | 0xD0 => some .outY1
  | 0xD4 => some .outT2
  | 0xD8 => some .outX2
  | 0xDC => some .outY2
  | 0xE0 => some .drvDth1
  | 0xE4 => some .drvDw1
  | 0xE8 => some .drvDth2
  | 0xEC => some .drvDw2
  | _ => none

end Sys2Proof.Machine
end

