-- ==== Sys2Proof/Machine/Ops.lean ====
section
/-! DEFINITION. The shared operations: how a command ends (60_exceptions.md R300 to R304), how it draws entropy
(20_memory.md R98), and reads of the register window (R82, R83). -/

namespace Sys2Proof.Machine

/-- `finish`: the command ends OK. RESULT becomes 0 and ERRFLAGS keeps every bit (R300, R302). -/
def finish (s : State) : State := { s with status := statusWord 0 }

/-- `raise e`: the command ends with the error. RESULT becomes its code, its ERRFLAGS bit is set, and nothing else
changes; `s` is the state before the command, since every check precedes every write (R300, R302, R303, R304). -/
def raise (e : ErrorCode) (s : State) : State :=
  { s with status := statusWord e.code, errflags := setFlag s.errflags e }

/-- The state with another CA unit. -/
def State.withCa (s : State) (c : CaUnit) : State := { s with ca := c }

/-- The state with another LFSR unit. -/
def State.withLfsr (s : State) (l : LfsrUnit) : State := { s with lfsr := l }

/-- The state with another SEL unit. -/
def State.withSel (s : State) (u : SelUnit) : State := { s with sel := u }

/-- The state with another PEND unit. -/
def State.withPend (s : State) (p : PendUnit) : State := { s with pend := p }

/-- The state with another entropy list and count of free words. -/
def State.withEntropy (s : State) (words : List Word) (drawn : Nat) : State :=
  { s with entropy := words, drawn := drawn }

/-- Takes one entropy word (R98): the next listed one, or a free value where none is listed (R17, log 3). -/
def takeWord (s : State) : Word × State :=
  match s.entropy with
  | w :: ws => (w, s.withEntropy ws s.drawn)
  | [] => (Config.entropyWord s.drawn, s.withEntropy [] (s.drawn + 1))

/-- Takes `count` entropy words and drops them. -/
def takeWords : Nat → State → State
  | 0, s => s
  | count + 1, s => takeWords count (takeWord s).2

/-- `draw_bits(n)`: the low n bits of one entropy word (R17, R98). -/
def drawBits (n : Nat) (s : State) : Word × State := (lowBits (takeWord s).1 n, (takeWord s).2)

/-- The first word of the list whose low n bits are not all 0, as those n bits, with the words after it (R98). -/
def firstNonzero (n : Nat) : List Word → Option (Word × List Word)
  | [] => none
  | w :: ws => if lowBits w n = 0 then firstNonzero n ws else some (lowBits w n, ws)

/-- A free value in 1 to 2^n - 1: every value of the range is the image of some word (R17, log 4). -/
def freeNonzero (n drawn : Nat) : Word :=
  BitVec.ofNat 32 (1 + (Config.entropyWord drawn).toNat % (2 ^ n - 1))

/-- `draw_range(1, 2^n - 1)`: takes words until one has a nonzero value in its low n bits (R98). Where the listed words
run out before that, the value is a free one of the range (R17, log 4). -/
def drawNonzero (n : Nat) (s : State) : Word × State :=
  match firstNonzero n s.entropy with
  | some (v, ws) => (v, s.withEntropy ws s.drawn)
  | none => (freeNonzero n s.drawn, s.withEntropy [] (s.drawn + 1))

/-- How many entropy words were taken between two states of one run. -/
def wordsTaken (before after : State) : Nat :=
  (before.entropy.length + after.drawn) - (after.entropy.length + before.drawn)

/-- The value of a register as a host read returns it (10_state.md R56): CMD reads 0 (R32) and PEND_G is a constant
(R53). -/
def readReg (s : State) : Reg → Word
  | .cmd => 0
  | .status => s.status
  | .errflags => s.errflags
  | .arg0 => s.arg0
  | .arg1 => s.arg1
  | .arg2 => s.arg2
  | .arg3 => s.arg3
  | .arg4 => s.arg4
  | .caState => s.ca.state
  | .caCfg => s.ca.cfg
  | .lfsrState => s.lfsr.state
  | .lfsrCfg => s.lfsr.cfg
  | .lfsrRule => s.lfsr.rule
  | .lfsrTaps => s.lfsr.taps
  | .lfsrSaved => s.lfsr.saved
  | .selChoose => s.sel.choose
  | .selCfg => s.sel.cfg
  | .selM => s.sel.m
  | .selMask => s.sel.mask
  | .selIdx0 => s.sel.idx0
  | .selIdx1 => s.sel.idx1
  | .selIdx2 => s.sel.idx2
  | .selIdx3 => s.sel.idx3
  | .selIdx4 => s.sel.idx4
  | .selIdx5 => s.sel.idx5
  | .selIdx6 => s.sel.idx6
  | .selIdx7 => s.sel.idx7
  | .pendTh1 => s.pend.th1
  | .pendW1 => s.pend.w1
  | .pendTh2 => s.pend.th2
  | .pendW2 => s.pend.w2
  | .pendL1 => s.pend.l1
  | .pendL2 => s.pend.l2
  | .pendM1 => s.pend.m1
  | .pendM2 => s.pend.m2
  | .pendDt => s.pend.dt
  | .pendG => Config.pendG
  | .outT1 => s.pend.outT1
  | .outX1 => s.pend.outX1
  | .outY1 => s.pend.outY1
  | .outT2 => s.pend.outT2
  | .outX2 => s.pend.outX2
  | .outY2 => s.pend.outY2
  | .drvDth1 => s.pend.drvDth1
  | .drvDw1 => s.pend.drvDw1
  | .drvDth2 => s.pend.drvDth2
  | .drvDw2 => s.pend.drvDw2

/-- An admitted read at a byte offset: the register there, or 0 at an unlisted offset (R82, R83). -/
def readWindow (s : State) (off : BitVec 8) : Word :=
  match Reg.ofOffset? off.toNat with
  | some r => readReg s r
  | none => 0

/-- The platform address of a byte offset of the window: `EDB_BASE + off` (R81, R99). -/
def hostAddress (off : BitVec 8) : Nat := Config.edbBase + off.toNat

end Sys2Proof.Machine
end

