-- ==== Sys2Proof/Machine/Ca.lean ====
section
/-! DEFINITION. The CA unit's commands (40_ca.md). -/

namespace Sys2Proof.Machine

/-- The neighbourhood code of the cell at bit p of a ring of `len` cells, in register form (R147): the left neighbour is
bit p + 1, the right neighbour bit p - 1, both modulo the length. -/
def caCode (state : Word) (len p : Nat) : Nat :=
  4 * (state.getLsbD ((p + 1) % len)).toNat + 2 * (state.getLsbD p).toNat
    + (state.getLsbD ((p + len - 1) % len)).toNat

/-- The sum of R147 over the bits below `count`: the table entry of each cell's code, at the cell's bit. -/
def caNextBelow (state : Word) (len rule : Nat) : Nat → Nat
  | 0 => 0
  | p + 1 => caNextBelow state len rule p + (rule.testBit (caCode state len p)).toNat * 2 ^ p

/-- `CA_NEXT(S, L, RT)` (R147): every cell computed from the old state. -/
def caNext (state : Word) (len rule : Nat) : Word := BitVec.ofNat 32 (caNextBelow state len rule len)

/-- CA_INIT (R140): refuses a length outside 3 to `CA_LMAX`, else sets LEN and RULE and clears the cells. -/
def execCaInit (len rule : Nat) (s : State) : Answer :=
  if len < 3 ∨ Config.caLMax < len then .next (raise .configError s)
  else .next (finish (s.withCa { state := 0, cfg := caCfgWord len rule }))

/-- CA_SET_RULE (R141): sets RULE and keeps LEN and the cells. -/
def execCaSetRule (rule : Nat) (s : State) : Answer :=
  .next (finish (s.withCa { s.ca with cfg := caCfgWord s.ca.len rule }))

/-- CA_SET_STATE (R142): the low L bits of ARG0. -/
def execCaSetState (s : State) : Answer :=
  .next (finish (s.withCa { s.ca with state := lowBits (s.x 0) s.ca.len }))

/-- CA_RANDOMIZE (R143): `draw_bits(L)`. -/
def execCaRandomize (s : State) : Answer :=
  let d := drawBits s.ca.len s
  .next (finish (d.2.withCa { s.ca with state := d.1 }))

/-- CA_RESET_STATE (R144): all cells 0. -/
def execCaResetState (s : State) : Answer :=
  .next (finish (s.withCa { s.ca with state := 0 }))

/-- CA_ADVANCE (R145): one synchronous step of the ring. -/
def execCaAdvance (s : State) : Answer :=
  .next (finish (s.withCa { s.ca with state := caNext s.ca.state s.ca.len s.ca.rule }))

end Sys2Proof.Machine
end

