-- ==== Sys2Proof/Machine/Lfsr.lean ====
section
/-! DEFINITION. The LFSR unit's commands (41_lfsr.md). -/

namespace Sys2Proof.Machine

/-- `TAPS(rule)` (R171): tap i + 1 for each set bit i in 0 to 7 of the rule number. -/
def taps (rule : Nat) : List Nat := ((List.range 8).filter (fun i => rule.testBit i)).map (· + 1)

/-- `TAPMASK(rule)` (R171): `rule[7:0] << 1`. -/
def tapMask (rule : Nat) : Word := BitVec.ofNat 32 (rule % 256 * 2)

/-- `CHECK_RULE(rule, n)` (R170): the range is tested before the taps. -/
def checkRule (rule n : Nat) : Option ErrorCode :=
  if rule < 1 ∨ 2 ^ (n - 1) < rule then some .configError
  else if (taps rule).any (fun t => decide (n - 1 < t)) then some .invalidTap
  else none

/-- `FB(S, T)` (R178): S XOR-folded with itself shifted right by each tap, masked to one bit. -/
def feedback (state : Word) (ts : List Nat) : Word :=
  ts.foldl (fun acc t => acc ^^^ state >>> t) state &&& 1

/-- The state after one advance (R177): shifted right by one with the feedback bit in position n - 1. -/
def lfsrNext (state : Word) (n rule : Nat) : Word :=
  state >>> 1 ||| feedback state (taps rule) <<< (n - 1)

/-- LFSR_INIT (R172, R305(c)): checks the width, the initial state and the rule in that order, then writes all five
registers. -/
def execLfsrInit (n : Nat) (s : State) : Answer :=
  let init := s.x 0
  let rule := s.x 1
  if n < 2 ∨ Config.lfsrNMax < n then .next (raise .configError s)
  else if init = 0 ∨ 2 ^ n ≤ init.toNat then .next (raise .configError s)
  else match checkRule rule.toNat n with
    | some e => .next (raise e s)
    | none => .next (finish (s.withLfsr
        { state := init, cfg := lfsrCfgWord n, rule := rule, taps := tapMask rule.toNat, saved := init }))

/-- LFSR_SET_RULE (R173). -/
def execLfsrSetRule (s : State) : Answer :=
  let rule := s.x 0
  match checkRule rule.toNat s.lfsr.nbits with
  | some e => .next (raise e s)
  | none => .next (finish (s.withLfsr { s.lfsr with rule := rule, taps := tapMask rule.toNat }))

/-- LFSR_SET_STATE (R174): the low N bits of ARG0, to the state and the saved state. -/
def execLfsrSetState (s : State) : Answer :=
  let v := lowBits (s.x 0) s.lfsr.nbits
  .next (finish (s.withLfsr { s.lfsr with state := v, saved := v }))

/-- LFSR_RANDOMIZE (R175): `draw_range(1, 2^N - 1)`; the saved state stays. -/
def execLfsrRandomize (s : State) : Answer :=
  let d := drawNonzero s.lfsr.nbits s
  .next (finish (d.2.withLfsr { s.lfsr with state := d.1 }))

/-- LFSR_RESET_STATE (R176): the saved state. -/
def execLfsrResetState (s : State) : Answer :=
  .next (finish (s.withLfsr { s.lfsr with state := s.lfsr.saved }))

/-- LFSR_ADVANCE (R177): never fails. -/
def execLfsrAdvance (s : State) : Answer :=
  .next (finish (s.withLfsr
    { s.lfsr with state := lfsrNext s.lfsr.state s.lfsr.nbits s.lfsr.rule.toNat }))

end Sys2Proof.Machine
end

