-- ==== Sys2Proof/Machine/Fixed.lean ====
section
/-! DEFINITION. The fixed-point numerics of the PEND unit (43_pendulum.md R230 to R238), on exact integers: nothing wraps
or rounds but where a rule says so (R231). Lean's `/` on Int rounds toward minus infinity for a positive divisor, which
is the floor of 00_scope.md R14. -/

namespace Sys2Proof.Machine

/-- `mul(a, b) = floor(a · b / 2^24)` (R232). -/
def qmul (a b : Int) : Int := a * b / 2 ^ 24

/-- `div(a, b) = trunc(a · 2^24 / b)`, used with b > 0 (R233). -/
def qdiv (a b : Int) : Int := (a * 2 ^ 24).tdiv b

/-- `K` of R234: 2^32 / (2π) rounded to the nearest integer. -/
def angK : Int := 683565276

/-- `ANG(r) = floor(r · K / 2^24) mod 2^32`: radians to a binary angle (R234). -/
def ang (r : Int) : Word := wrap32 (r * angK / 2 ^ 24)

/-- The quadrant `a[31:30]` of a binary angle (R235). -/
def quadrant (a : Word) : Nat := bits a 31 30

/-- The reduced argument X of a binary angle, 0 to 2^30 (R235). -/
def reducedArg (a : Word) : Nat :=
  if quadrant a = 0 ∨ quadrant a = 2 then bits a 29 0 else 2 ^ 30 - bits a 29 0

/-- C1 of R236, in units of 2^-30. -/
def sinC1 : Int := 1686629713

/-- C3 of R236. -/
def sinC3 : Int := -688904866

/-- C5 of R236. -/
def sinC5 : Int := 76016977

/-- The polynomial of R237 on the reduced argument, as the Q8.24 magnitude m. -/
def sinMagnitude (arg : Int) : Int :=
  let x2 := arg * arg / 2 ^ 30
  let p3 := sinC3 + sinC5 * x2 / 2 ^ 30
  let p1 := sinC1 + p3 * x2 / 2 ^ 30
  p1 * arg / 2 ^ 30 / 2 ^ 6

/-- `SIN(a)` (R237). -/
def qsin (a : Word) : Int :=
  if quadrant a < 2 then sinMagnitude (reducedArg a) else -sinMagnitude (reducedArg a)

/-- `COS(a) = SIN(wrap_32(a + 2^30))` (R238). -/
def qcos (a : Word) : Int := qsin (a + 0x40000000)

end Sys2Proof.Machine
end

