-- ==== Sys2Proof/Machine/Pend.lean ====
section
/-! DEFINITION. The PEND unit's equations of motion, Euler step, derived outputs and commands (43_pendulum.md R241 to
R255). -/

namespace Sys2Proof.Machine

/-- What DERIVS reads and the shared terms it forms first (R241). -/
structure Terms where
  l1 : Int
  l2 : Int
  m1 : Int
  m2 : Int
  w1 : Int
  w2 : Int
  s1 : Int
  s2 : Int
  sd : Int
  cd : Int
  mass : Int
deriving DecidableEq, Repr

/-- θ1′, ω1′, θ2′ and ω2′ as exact Q8.24 integers (R247). -/
structure Derivs where
  dth1 : Int
  dw1 : Int
  dth2 : Int
  dw2 : Int
deriving DecidableEq, Repr

/-- The shared terms of DERIVS for the constants of the unit and the given state (R241). -/
def terms (p : PendUnit) (th1 : Word) (w1 : Int) (th2 : Word) (w2 : Int) : Terms :=
  { l1 := sext32 p.l1, l2 := sext32 p.l2, m1 := sext32 p.m1, m2 := sext32 p.m2, w1 := w1, w2 := w2,
    s1 := qsin th1, s2 := qsin th2, sd := qsin (th2 - th1), cd := qcos (th2 - th1),
    mass := sext32 p.m1 + sext32 p.m2 }

/-- den1 (R242). -/
def den1 (t : Terms) : Int := qmul t.mass t.l1 - qmul (qmul (qmul t.m2 t.l1) t.cd) t.cd

/-- n1 (R243). -/
def num1 (t : Terms) : Int :=
  qmul (qmul (qmul (qmul (qmul t.m2 t.l1) t.w1) t.w1) t.sd) t.cd
    + qmul (qmul (qmul t.m2 Config.gravity) t.s2) t.cd
    + qmul (qmul (qmul (qmul t.m2 t.l2) t.w2) t.w2) t.sd
    - qmul (qmul t.mass Config.gravity) t.s1

/-- den2 (R244). -/
def den2 (t : Terms) : Int := qmul (qdiv t.l2 t.l1) (den1 t)

/-- n2 (R245): a negated term is computed positive and then subtracted. -/
def num2 (t : Terms) : Int :=
  0 - qmul (qmul (qmul (qmul (qmul t.m2 t.l2) t.w2) t.w2) t.sd) t.cd
    + qmul (qmul (qmul t.mass Config.gravity) t.s1) t.cd
    - qmul (qmul (qmul (qmul t.mass t.l1) t.w1) t.w1) t.sd
    - qmul (qmul t.mass Config.gravity) t.s2

/-- `DERIVS(th1, w1, th2, w2)` (R246, R247): none is the NUM_DEGENERACY case. -/
def derivs (p : PendUnit) (th1 : Word) (w1 : Int) (th2 : Word) (w2 : Int) : Option Derivs :=
  let t := terms p th1 w1 th2 w2
  if den1 t ≤ 0 ∨ den2 t ≤ 0 then none
  else some { dth1 := w1, dw1 := qdiv (num1 t) (den1 t), dth2 := w2, dw2 := qdiv (num2 t) (den2 t) }

/-- DERIVS of the unit's current state (R248, R254, R255). -/
def currentDerivs (p : PendUnit) : Option Derivs := derivs p p.th1 (sext32 p.w1) p.th2 (sext32 p.w2)

/-- A candidate new state of the Euler step: angles are wrapped, velocities exact (R248). -/
structure Candidate where
  th1 : Word
  w1 : Int
  th2 : Word
  w2 : Int
deriving DecidableEq, Repr

/-- The forward Euler step of R248, every component from the old state. -/
def eulerStep (p : PendUnit) (d : Derivs) : Candidate :=
  { th1 := p.th1 + ang (qmul (sext32 p.dt) d.dth1),
    w1 := sext32 p.w1 + qmul (sext32 p.dt) d.dw1,
    th2 := p.th2 + ang (qmul (sext32 p.dt) d.dth2),
    w2 := sext32 p.w2 + qmul (sext32 p.dt) d.dw2 }

/-- The horizontal offset of an arm's end: `mul(L, SIN(t))` (R249). -/
def posX (len : Word) (t : Word) : Int := qmul (sext32 len) (qsin t)

/-- The vertical offset of an arm's end: `0 - mul(L, COS(t))` (R249). -/
def posY (len : Word) (t : Word) : Int := 0 - qmul (sext32 len) (qcos t)

/-- The unit after a successful PEND_ADVANCE: the new state, and the outputs from the NEW angles (R254). -/
def advanced (p : PendUnit) (c : Candidate) : PendUnit :=
  { p with
    th1 := c.th1, w1 := wrap32 c.w1, th2 := c.th2, w2 := wrap32 c.w2,
    outT1 := c.th1, outX1 := wrap32 (posX p.l1 c.th1), outY1 := wrap32 (posY p.l1 c.th1),
    outT2 := c.th2, outX2 := wrap32 (posX p.l2 c.th2), outY2 := wrap32 (posY p.l2 c.th2) }

/-- PEND_INIT (R250): refuses any value that is not positive, else takes the constants, draws θ1 then θ2 and clears the
velocities. OUT_* and DRV_* stay. -/
def execPendInit (s : State) : Answer :=
  if sext32 (s.x 0) ≤ 0 ∨ sext32 (s.x 1) ≤ 0 ∨ sext32 (s.x 2) ≤ 0 ∨ sext32 (s.x 3) ≤ 0 ∨ sext32 (s.x 4) ≤ 0 then
    .next (raise .configError s)
  else
    let d1 := drawBits 32 s
    let d2 := drawBits 32 d1.2
    .next (finish (d2.2.withPend
      { s.pend with
        l1 := s.x 0, l2 := s.x 1, m1 := s.x 2, m2 := s.x 3, dt := s.x 4,
        th1 := d1.1, th2 := d2.1, w1 := 0, w2 := 0 }))

/-- PEND_SET_STATE (R251): every 32-bit value is legal. -/
def execPendSetState (s : State) : Answer :=
  .next (finish (s.withPend { s.pend with th1 := s.x 0, w1 := s.x 1, th2 := s.x 2, w2 := s.x 3 }))

/-- PEND_SET_DT (R252): refuses a step that is not positive. -/
def execPendSetDt (s : State) : Answer :=
  if sext32 (s.x 0) ≤ 0 then .next (raise .configError s)
  else .next (finish (s.withPend { s.pend with dt := s.x 0 }))

/-- PEND_RANDOMIZE (R253): draws θ1 then θ2 and clears the velocities. -/
def execPendRandomize (s : State) : Answer :=
  let d1 := drawBits 32 s
  let d2 := drawBits 32 d1.2
  .next (finish (d2.2.withPend { s.pend with th1 := d1.1, th2 := d2.1, w1 := 0, w2 := 0 }))

/-- PEND_ADVANCE (R254): one Euler step and the derived outputs; NUM_DEGENERACY before NUM_OVERFLOW (R305(h)). -/
def execPendAdvance (s : State) : Answer :=
  match currentDerivs s.pend with
  | none => .next (raise .numDegeneracy s)
  | some d =>
    let c := eulerStep s.pend d
    if ¬ fitsS32 c.w1 ∨ ¬ fitsS32 c.w2 then .next (raise .numOverflow s)
    else .next (finish (s.withPend (advanced s.pend c)))

/-- PEND_DERIVS (R255): the derivatives of the current state; the state does not advance. -/
def execPendDerivs (s : State) : Answer :=
  match currentDerivs s.pend with
  | none => .next (raise .numDegeneracy s)
  | some d =>
    if ¬ fitsS32 d.dw1 ∨ ¬ fitsS32 d.dw2 then .next (raise .numOverflow s)
    else .next (finish (s.withPend
      { s.pend with
        drvDth1 := wrap32 d.dth1, drvDw1 := wrap32 d.dw1, drvDth2 := wrap32 d.dth2, drvDw2 := wrap32 d.dw2 }))

end Sys2Proof.Machine
end

