-- ==== Sys2Proof/Machine/Sel.lean ====
section
/-! DEFINITION. The SEL unit's functions and commands (42_selector.md), in exact natural-number arithmetic (R206). -/

namespace Sys2Proof.Machine

/-- `choose(n, k)` (R200): the number of k-subsets of an n-set, by the exact product rule. -/
def binomial (n : Nat) : Nat → Nat
  | 0 => 1
  | k + 1 => binomial n k * (n - k) / (k + 1)

/-- The search of R201 downward from v: the largest value at most v whose `choose(·, b)` does not exceed x. -/
def searchDown (b x : Nat) : Nat → Nat
  | 0 => 0
  | v + 1 => if x < binomial (v + 1) b then searchDown b x v else v + 1

/-- The loop of R201 with b rounds left, exclusive bound a and remainder x. The subtraction uses b before the decrement
(90_conflicts.md C4). -/
def combinationLoop (n : Nat) : (b a x : Nat) → List Nat
  | 0, _, _ => []
  | b + 1, a, x =>
    let v := searchDown (b + 1) x (a - 1)
    (n - 1 - v) :: combinationLoop n b v (x - binomial v (b + 1))

/-- `combination(n, k, m)` (R201). -/
def combination (n k m : Nat) : List Nat := combinationLoop n k n (binomial n k - 1 - m)

/-- SEL_MASK of an index sequence: bit j for each index j (10_state.md R47, R203). -/
def selMask (idx : List Nat) : Word := BitVec.ofNat 32 (idx.map (2 ^ ·)).sum

/-- Byte of entry e: the index where the sequence has one, else 0xFF (10_state.md R48, R203). -/
def idxByte (idx : List Nat) (e : Nat) : Nat := idx.getD e 0xFF

/-- SEL_IDXr of an index sequence: entry 4r + j in byte j (R48, R203). -/
def idxWord (idx : List Nat) (r : Nat) : Word :=
  BitVec.ofNat 32 (idxByte idx (4 * r) + idxByte idx (4 * r + 1) * 2 ^ 8
    + idxByte idx (4 * r + 2) * 2 ^ 16 + idxByte idx (4 * r + 3) * 2 ^ 24)

/-- The SEL registers that a successful SEL_COMBINATION leaves; SEL_CHOOSE stays (R203, 10_state.md R44). -/
def selResult (u : SelUnit) (n k : Nat) (m : Word) (idx : List Nat) : SelUnit :=
  { choose := u.choose, cfg := selCfgWord n k, m := m, mask := selMask idx,
    idx0 := idxWord idx 0, idx1 := idxWord idx 1, idx2 := idxWord idx 2, idx3 := idxWord idx 3,
    idx4 := idxWord idx 4, idx5 := idxWord idx 5, idx6 := idxWord idx 6, idx7 := idxWord idx 7 }

/-- SEL_CHOOSE (R202): refuses n or k above `SEL_NMAX`, else latches `choose(n, k)`. -/
def execSelChoose (n k : Nat) (s : State) : Answer :=
  if Config.selNMax < n ∨ Config.selNMax < k then .next (raise .configError s)
  else .next (finish (s.withSel { s.sel with choose := BitVec.ofNat 32 (binomial n k) }))

/-- SEL_COMBINATION (R203): refuses n or k above `SEL_NMAX`, then m out of range, else latches the combination. -/
def execSelCombination (n k : Nat) (s : State) : Answer :=
  let m := s.x 0
  if Config.selNMax < n ∨ Config.selNMax < k then .next (raise .configError s)
  else if binomial n k ≤ m.toNat then .next (raise .selRange s)
  else .next (finish (s.withSel (selResult s.sel n k m (combination n k m.toNat))))

end Sys2Proof.Machine
end

