-- ==== Sys2Proof/Machine/System.lean ====
section
/-! DEFINITION. The one command of no unit (44_system.md). -/

namespace Sys2Proof.Machine

/-- NOP (R290): RESULT becomes 0; ERRFLAGS and every other register stay. -/
def execNop (s : State) : Answer := .next (finish s)

end Sys2Proof.Machine
end

