-- ==== Sys2Proof/Machine/Dispatch.lean ====
section
/-! DEFINITION. The meaning of each command (60_exceptions.md R300: "run the command's rule"), one arm per command. -/

namespace Sys2Proof.Machine

def exec (i : Instr) (s : State) : Host.Outcome State Fault Refusal :=
  match i with
  | .nop => Sys2Proof.Machine.execNop s
  | .caInit len rule => Sys2Proof.Machine.execCaInit len rule s
  | .caSetRule rule => Sys2Proof.Machine.execCaSetRule rule s
  | .caSetState => Sys2Proof.Machine.execCaSetState s
  | .caRandomize => Sys2Proof.Machine.execCaRandomize s
  | .caResetState => Sys2Proof.Machine.execCaResetState s
  | .caAdvance => Sys2Proof.Machine.execCaAdvance s
  | .lfsrInit nbits => Sys2Proof.Machine.execLfsrInit nbits s
  | .lfsrSetRule => Sys2Proof.Machine.execLfsrSetRule s
  | .lfsrSetState => Sys2Proof.Machine.execLfsrSetState s
  | .lfsrRandomize => Sys2Proof.Machine.execLfsrRandomize s
  | .lfsrResetState => Sys2Proof.Machine.execLfsrResetState s
  | .lfsrAdvance => Sys2Proof.Machine.execLfsrAdvance s
  | .selChoose n k => Sys2Proof.Machine.execSelChoose n k s
  | .selCombination n k => Sys2Proof.Machine.execSelCombination n k s
  | .pendInit => Sys2Proof.Machine.execPendInit s
  | .pendSetState => Sys2Proof.Machine.execPendSetState s
  | .pendSetDt => Sys2Proof.Machine.execPendSetDt s
  | .pendRandomize => Sys2Proof.Machine.execPendRandomize s
  | .pendAdvance => Sys2Proof.Machine.execPendAdvance s
  | .pendDerivs => Sys2Proof.Machine.execPendDerivs s

end Sys2Proof.Machine
end

