-- ==== Sys2Proof/Machine/Bus.lean ====
section
/-! DEFINITION. The bus port, the command executor and reset: what the block does with one event from outside
(20_memory.md R80 to R98, 60_exceptions.md R300, R316, 70_reset_and_hazards.md R340, R341). -/

namespace Sys2Proof.Machine

/-- `EXECUTE(w)` (R300): decode, then run the command's rule; a word that fails decode ends with ILLEGAL_COMMAND and
changes nothing else (R116, R303). -/
def execute (w : Word) (s : State) : Answer :=
  match decode w with
  | .ok i => exec i s
  | .error _ => .next (raise .illegalCommand s)

/-- An access is admitted when it is 32 bits wide and its offset is a multiple of 4 (R82). -/
def Access.admitted (a : Access) : Bool := a.be == 0xF#4 && a.off.toNat % 4 == 0

/-- An admitted write of v to a register (R83, R87): CMD runs a command, ARGi stores, ERRFLAGS clears the bits written
as 1, and a read-only register ignores it. -/
def writeReg (r : Reg) (v : Word) (s : State) : Answer :=
  match r with
  | .cmd => execute v s
  | .errflags => .next { s with errflags := clearFlags s.errflags v }
  | .arg0 => .next { s with arg0 := v }
  | .arg1 => .next { s with arg1 := v }
  | .arg2 => .next { s with arg2 := v }
  | .arg3 => .next { s with arg3 := v }
  | .arg4 => .next { s with arg4 := v }
  | _ => .next s

/-- An admitted write of v at a byte offset; an unlisted offset ignores it (R83). -/
def writeWindow (off : BitVec 8) (v : Word) (s : State) : Answer :=
  match Reg.ofOffset? off.toNat with
  | some r => writeReg r v s
  | none => .next s

/-- The state with one more response given to the host (R88). -/
def respond (r : Response) (s : State) : State := { s with responses := s.responses ++ [r] }

/-- The answer with one more response given to the host. -/
def respondAfter (r : Response) : Answer → Answer
  | .next s => .next (respond r s)
  | .fault f => .fault f
  | .refused q => .refused q

/-- Serves one bus access to completion (R82, R84, R88, R89): an admitted read returns the register and changes nothing
(R87), an admitted write takes effect, and a refused access changes nothing and gets the error response, a refused read
with 0 on the data lines. -/
def serve (a : Access) (s : State) : Answer :=
  if a.admitted then
    if a.write then respondAfter .writeOk (writeWindow a.off a.data s)
    else .next (respond (.readOk (readWindow s a.off)) s)
  else .next (respond (if a.write then .writeError else .readError 0) s)

/-- Reset (R340): every register takes its reset value, from whatever state. The inputs still to come and the outputs
already given are no state of the block and stay (log 1). -/
def resetBlock (s : State) : State :=
  { State.reset with
    entropy := s.entropy, drawn := s.drawn, events := s.events, responses := s.responses }

/-- How many entropy words the command w takes in all from this state. -/
def wordsOf (w : Word) (s : State) : Nat :=
  match execute w s with
  | .next t => wordsTaken s t
  | .fault _ => 0
  | .refused _ => 0

/-- Reset while the command w runs (R341): none of its writes is kept, the reset state results, and the stalled CMD write
completes with a free response. The words it had already taken from the port are gone (log 7). -/
def abandon (w : Word) (taken : Nat) (s : State) : State :=
  let r := Config.abandonedResponse s.responses.length
  respond (.abandoned r.1 r.2) (resetBlock (takeWords (min taken (wordsOf w s)) s))

/-- The next event from outside, and the state with that event consumed (R88: in the order they arrive). -/
def fetchEvent (s : State) : Option (Event × State) :=
  match s.events with
  | [] => none
  | e :: es => some (e, { s with events := es })

/-- What the block does with one event. -/
def handle (e : Event) (s : State) : Answer :=
  match e with
  | .access a => serve a s
  | .reset => .next (resetBlock s)
  | .resetDuring w taken => .next (abandon w taken s)

/-- One step: the next event is handled; with none pending the block holds its state and does nothing
(60_exceptions.md R313, R315). -/
def stepBlock (s : State) : Answer :=
  match fetchEvent s with
  | some (e, s') => handle e s'
  | none => .next s

/-- The bus request that writes w to CMD. -/
def cmdWrite (w : Word) : Access := { write := true, off := 0x00, be := 0xF, data := w }

/-- The state with one more event arriving before all that are pending. -/
def pushEvent (e : Event) (s : State) : State := { s with events := e :: s.events }

end Sys2Proof.Machine
end

