-- ==== Sys2Proof/Machine/Step.lean ====
section
/-! DEFINITION. One step of the machine, and how an instruction is put where the next step takes it. -/

namespace Sys2Proof.Machine

/-- One step: one event from outside is handled to completion (20_memory.md R88, R89). -/
def step (s : State) : Host.Outcome State Fault Refusal := stepBlock s

/-- The state in which the very next event is the host's write of the `nbits` bits `w` to CMD. The block fetches no
instruction (10_state.md R30, 20_memory.md R93): a command is the value of a CMD write (log 1). -/
def State.withFetchWord (s : State) (nbits w : Nat) : State :=
  pushEvent (.access (cmdWrite (tableWord nbits w))) s

end Sys2Proof.Machine
end

