-- ==== Sys2Proof/Safety.lean ====
section
/-! DEFINITION. What claims about the block speak of: the state invariant of 10_state.md R59 with the reserved bits of
R33, R34, R37, R40 and R45, the unit that owns a command (00_scope.md R1, R2), and the views of a register that the spec
uses beside the pseudocode. A run is safe when every state of it has the invariant; the block itself never stops. -/

namespace Sys2Proof.Machine

/-- R36, R37 and the CA clauses of R59. -/
abbrev CaUnit.Inv (c : CaUnit) : Prop :=
  3 ≤ c.len ∧ c.len ≤ 32 ∧ c.state.toNat < 2 ^ c.len ∧ c.cfg = caCfgWord c.len c.rule

/-- R39 to R43 and the LFSR clauses of R59. -/
abbrev LfsrUnit.Inv (l : LfsrUnit) : Prop :=
  2 ≤ l.nbits ∧ l.nbits ≤ 32 ∧ l.cfg = lfsrCfgWord l.nbits
    ∧ l.state.toNat < 2 ^ l.nbits ∧ l.saved.toNat < 2 ^ l.nbits
    ∧ 1 ≤ l.rule.toNat ∧ l.rule.toNat ≤ 2 ^ (l.nbits - 1)
    ∧ l.taps = tapMask l.rule.toNat ∧ ∀ t ∈ Machine.taps l.rule.toNat, t ≤ l.nbits - 1

/-- R45 to R48: SEL_CFG, SEL_M, SEL_MASK and SEL_IDX0 to SEL_IDX7 hold one combination. -/
abbrev SelUnit.Inv (u : SelUnit) : Prop :=
  u.k ≤ u.n ∧ u.n ≤ 32 ∧ u.cfg = selCfgWord u.n u.k ∧ u.m.toNat < binomial u.n u.k
    ∧ u = selResult u u.n u.k u.m (combination u.n u.k u.m.toNat)

/-- R51, R52 and the PEND clause of R59. -/
abbrev PendUnit.Inv (p : PendUnit) : Prop :=
  0 < sext32 p.l1 ∧ 0 < sext32 p.l2 ∧ 0 < sext32 p.m1 ∧ 0 < sext32 p.m2 ∧ 0 < sext32 p.dt

/-- The state invariant of R59, with R33 (RESULT takes only the values 0 to 6, the other bits read 0) and R34 (bits 0 and
31:7 of ERRFLAGS read 0). -/
abbrev State.Inv (s : State) : Prop :=
  s.status.toNat ≤ 6 ∧ s.errflags &&& 0xFFFFFF81 = 0
    ∧ s.ca.Inv ∧ s.lfsr.Inv ∧ s.sel.Inv ∧ s.pend.Inv

/-- The unit a command belongs to (R1). -/
inductive Owner where
  | system
  | ca
  | lfsr
  | sel
  | pend
deriving DecidableEq, Repr

/-- The unit whose state a command may read and write (R2; files 40_ca.md to 44_system.md). -/
def Owner.of : Instr → Owner
  | .nop => .system
  | .caInit _ _ | .caSetRule _ | .caSetState | .caRandomize | .caResetState | .caAdvance => .ca
  | .lfsrInit _ | .lfsrSetRule | .lfsrSetState | .lfsrRandomize | .lfsrResetState | .lfsrAdvance => .lfsr
  | .selChoose _ _ | .selCombination _ _ => .sel
  | .pendInit | .pendSetState | .pendSetDt | .pendRandomize | .pendAdvance | .pendDerivs => .pend

/-- The same command run `count` times, each from the state the last one left; it stops at a fault or a refusal. -/
def execTimes (i : Instr) : Nat → State → Answer
  | 0, s => .next s
  | count + 1, s =>
    match exec i s with
    | .next t => execTimes i count t
    | .fault f => .fault f
    | .refused q => .refused q

/-- So many steps of the machine, each from the state the last one left; it stops at a fault or a refusal. -/
def stepTimes : Nat → State → Answer
  | 0, s => .next s
  | count + 1, s =>
    match step s with
    | .next t => stepTimes count t
    | .fault f => .fault f
    | .refused q => .refused q

/-- The event is an access that is no admitted CMD write of LFSR_INIT or LFSR_SET_STATE, the two commands that write
LFSR_SAVED (10_state.md R43). -/
def keepsSaved (e : Event) : Prop :=
  ∃ a : Access, e = .access a ∧
    ∀ w, a = cmdWrite w → decode w ≠ .ok .lfsrSetState ∧ ∀ n, decode w ≠ .ok (.lfsrInit n)

/-- LFSR_RESET_STATE gives back v from the state s, whatever accesses come first, so long as none of them runs LFSR_INIT
or LFSR_SET_STATE (41_lfsr.md R176): argument writes, reads, other commands, words of no command, refused accesses. -/
def restoresSaved (s : State) (v : Word) : Prop :=
  ∀ before after : List Event, (∀ e ∈ before, keepsSaved e) →
    ∃ t : State,
      stepTimes (before.length + 1) { s with events := before ++ .access (cmdWrite 0x24000000) :: after } = .next t
        ∧ t.status = 0 ∧ t.lfsr.state = v ∧ t.lfsr.saved = v ∧ t.events = after

/-- The commands that draw entropy (20_memory.md R98). -/
def drawsEntropy : Instr → Bool
  | .caRandomize | .lfsrRandomize | .pendInit | .pendRandomize => true
  | .nop | .caInit _ _ | .caSetRule _ | .caSetState | .caResetState | .caAdvance => false
  | .lfsrInit _ | .lfsrSetRule | .lfsrSetState | .lfsrResetState | .lfsrAdvance => false
  | .selChoose _ _ | .selCombination _ _ => false
  | .pendSetState | .pendSetDt | .pendAdvance | .pendDerivs => false

/-- The result codes a command can end with (60_exceptions.md R306). -/
def possibleResults : Instr → List Nat
  | .nop => [0]
  | .caInit _ _ => [0, 1]
  | .caSetRule _ | .caSetState | .caRandomize | .caResetState | .caAdvance => [0]
  | .lfsrInit _ => [0, 1, 2]
  | .lfsrSetRule => [0, 1, 2]
  | .lfsrSetState | .lfsrRandomize | .lfsrResetState | .lfsrAdvance => [0]
  | .selChoose _ _ => [0, 1]
  | .selCombination _ _ => [0, 1, 3]
  | .pendInit | .pendSetDt => [0, 1]
  | .pendSetState | .pendRandomize => [0]
  | .pendAdvance | .pendDerivs => [0, 4, 5]

/-- The reset value of a register (10_state.md R56). -/
def Reg.resetValue : Reg → Word
  | .caCfg => 0x00000010
  | .lfsrState => 0x00000001
  | .lfsrCfg => 0x00000008
  | .lfsrRule => 0x00000001
  | .lfsrTaps => 0x00000002
  | .lfsrSaved => 0x00000001
  | .selIdx0 | .selIdx1 | .selIdx2 | .selIdx3 | .selIdx4 | .selIdx5 | .selIdx6 | .selIdx7 => 0xFFFFFFFF
  | .pendL1 | .pendL2 | .pendM1 | .pendM2 => 0x01000000
  | .pendDt => 0x00028F5C
  | .pendG => 0x09CCCCCD
  | _ => 0x00000000

/-- The byte offsets that R56 does not list (20_memory.md R83). -/
def unlistedOffsets : List Nat :=
  [0x0C, 0x24, 0x28, 0x2C, 0x30, 0x34, 0x38, 0x3C, 0x48, 0x4C, 0x64, 0x68, 0x6C, 0xF0, 0xF4, 0xF8, 0xFC]

/-- SEL_IDXr (R48). -/
def SelUnit.idxReg (u : SelUnit) : Nat → Word
  | 0 => u.idx0
  | 1 => u.idx1
  | 2 => u.idx2
  | 3 => u.idx3
  | 4 => u.idx4
  | 5 => u.idx5
  | 6 => u.idx6
  | 7 => u.idx7
  | _ => 0

/-- Entry e of the held sequence: byte e mod 4 of SEL_IDX⌊e/4⌋ (R48). -/
def SelUnit.entry (u : SelUnit) (e : Nat) : Nat := (u.idxReg (e / 4)).toNat / 2 ^ (8 * (e % 4)) % 256

/-- `rotl_L(S)`: each bit moves up one place within L bits (40_ca.md R147). -/
def ringUp (v : Word) (len : Nat) : Word := lowBits (v <<< 1 ||| v >>> (len - 1)) len

/-- `rotr_L(S)`: each bit moves down one place within L bits (R147). -/
def ringDown (v : Word) (len : Nat) : Word := v >>> 1 ||| (v &&& 1) <<< (len - 1)

/-- The term of code c in the parallel form of R147: the cells whose neighbourhood code is c. -/
def codeCells (v : Word) (len c : Nat) : Word :=
  lowBits ((if c.testBit 2 then ringDown v len else ~~~ringDown v len)
    &&& (if c.testBit 1 then v else ~~~v)
    &&& (if c.testBit 0 then ringUp v len else ~~~ringUp v len)) len

/-- CA_NEXT in the parallel form of R147: the OR over the codes whose table entry is 1. -/
def caNextParallel (v : Word) (len rule : Nat) : Word :=
  (List.range 8).foldl (fun acc c => if rule.testBit c then acc ||| codeCells v len c else acc) 0

end Sys2Proof.Machine
end

