-- ==== Sys2Proof/Certificates/Slice0/Obligations.lean ====
section
/-! DEFINITION. The statements for the provers. Each docstring names the rule of spec/ the statement formalises. A
statement that shows a register's new value writes the whole next state, so it is also the command's completion and its
frame: every register, flag and input it does not name is unchanged. -/

open Sys2Proof Sys2Proof.Machine

/-! ### Encoding and decoding (30_encoding.md) -/

/-- Words written out from the patterns of R114 decode to the commands they stand for. -/
def Obligations.SpecWordsDecode : Prop :=
  decode 0b00000000000000000000000000000000 = .ok .nop
    ∧ decode 0b00010000000000000110111000010000 = .ok (.caInit 16 110)
    ∧ decode 0b00010001000000001010010100000000 = .ok (.caSetRule 165)
    ∧ decode 0b00010101000000000000000000000000 = .ok .caAdvance
    ∧ decode 0b00100000000000000000000000100000 = .ok (.lfsrInit 32)
    ∧ decode 0b00100101000000000000000000000000 = .ok .lfsrAdvance
    ∧ decode 0b00110000000000000000010100000010 = .ok (.selChoose 5 2)
    ∧ decode 0b00110001000000000010000000010000 = .ok (.selCombination 32 16)
    ∧ decode 0b01000100000000000000000000000000 = .ok .pendAdvance
    ∧ decode 0x16000000 = .error (.unassignedOpcode 0x16)
    ∧ decode 0x10000040 = .error (.reservedBit .caInit)

/-- Decode and encode agree: no field and no bit of a well-formed command is dropped (R110 to R114). -/
def Obligations.DecodeOfEncode : Prop :=
  ∀ i : Instr, WellFormed i → decode (encode i) = .ok i

/-- A word has at most one meaning: what decodes is the encoding of exactly that command, and it is well-formed. -/
def Obligations.EncodeOfDecode : Prop :=
  ∀ (w : Word) (i : Instr), decode w = .ok i → WellFormed i ∧ encode i = w

/-- R114: a word is command C exactly when its bits under the mask of C's format are C's opcode and zeros. The masks and
opcodes are written out here as R114 gives them. -/
def Obligations.WordIsCommandByMask : Prop :=
  ∀ (w : Word) (o : Opcode),
    (∃ i, decode w = .ok i ∧ i.opcode = o) ↔
      match o with
      | .nop => w &&& 0xFFFFFFFF = 0x00000000
      | .caInit => w &&& 0xFFFF00C0 = 0x10000000
      | .caSetRule => w &&& 0xFFFF00FF = 0x11000000
      | .caSetState => w &&& 0xFFFFFFFF = 0x12000000
      | .caRandomize => w &&& 0xFFFFFFFF = 0x13000000
      | .caResetState => w &&& 0xFFFFFFFF = 0x14000000
      | .caAdvance => w &&& 0xFFFFFFFF = 0x15000000
      | .lfsrInit => w &&& 0xFFFFFFC0 = 0x20000000
      | .lfsrSetRule => w &&& 0xFFFFFFFF = 0x21000000
      | .lfsrSetState => w &&& 0xFFFFFFFF = 0x22000000
      | .lfsrRandomize => w &&& 0xFFFFFFFF = 0x23000000
      | .lfsrResetState => w &&& 0xFFFFFFFF = 0x24000000
      | .lfsrAdvance => w &&& 0xFFFFFFFF = 0x25000000
      | .selChoose => w &&& 0xFFFFC0C0 = 0x30000000
      | .selCombination => w &&& 0xFFFFC0C0 = 0x31000000
      | .pendInit => w &&& 0xFFFFFFFF = 0x40000000
      | .pendSetState => w &&& 0xFFFFFFFF = 0x41000000
      | .pendSetDt => w &&& 0xFFFFFFFF = 0x42000000
      | .pendRandomize => w &&& 0xFFFFFFFF = 0x43000000
      | .pendAdvance => w &&& 0xFFFFFFFF = 0x44000000
      | .pendDerivs => w &&& 0xFFFFFFFF = 0x45000000

/-- R116, R117: a word of no command, by its opcode or by a reserved bit, ends with ILLEGAL_COMMAND and changes nothing
but STATUS and ERRFLAGS; the CMD write still completes. -/
def Obligations.IllegalWordChangesOnlyStatus : Prop :=
  ∀ (w : Word) (s : State) (es : List Event),
    ((∀ o : Opcode, o.code ≠ w.toNat / 2 ^ 24) ∨
      (∃ o : Opcode, o.code = w.toNat / 2 ^ 24 ∧ w &&& o.format.mask &&& 0x00FFFFFF ≠ 0)) →
    s.events = .access (cmdWrite w) :: es →
    step s = .next { s with
      events := es, status := 6, errflags := s.errflags ||| 0x40, responses := s.responses ++ [.writeOk] }

/-! ### Steps, the bus and reset (20_memory.md, 60_exceptions.md, 70_reset_and_hazards.md) -/

/-- R300: when the next event is a CMD write whose word decodes to i, the step is exec of i on the state with that event
consumed, and the write completes after it (R89). -/
def Obligations.StepRunsDecodedCommand : Prop :=
  ∀ (w : Word) (i : Instr) (s t : State) (es : List Event),
    s.events = .access (cmdWrite w) :: es → decode w = .ok i →
    exec i { s with events := es } = .next t →
    step s = .next { t with responses := t.responses ++ [.writeOk] }

/-- R88: accesses are served one at a time in the order they arrive, and each gets exactly one response. -/
def Obligations.StepServesAccessesInOrder : Prop :=
  ∀ (a : Access) (s t : State) (es : List Event),
    s.events = .access a :: es → step s = .next t →
    t.events = es ∧ ∃ r : Response, t.responses = s.responses ++ [r]

/-- The model's choice, on R300 ("every command ends"): every step answers a next state, whatever the state and the next
event. It rests on log 1 (with no event pending the step is idle), log 3 (the wait for an entropy word, which R352 and U8
say may never end, is not modelled), log 5 (a refused access is a next state) and log 12 (nothing faults). -/
def Obligations.StepAlwaysAnswersNext : Prop :=
  ∀ s : State, ∃ t : State, step s = .next t

/-- The state right after reset has the invariant of R59. -/
def Obligations.ResetHasInvariant : Prop := State.reset.Inv

/-- R59 with R33 and R34: every step, whatever the event, keeps the invariant. -/
def Obligations.StepKeepsInvariant : Prop :=
  ∀ s t : State, s.Inv → step s = .next t → t.Inv

/-- R340: a reset event gives every register the value R56 lists, from every state, takes no entropy word, and the
state has the invariant of R59. -/
def Obligations.ResetEventRestoresRegisters : Prop :=
  ∀ (s : State) (es : List Event), s.events = .reset :: es →
    ∃ t : State, step s = .next t ∧ (∀ r : Reg, readReg t r = r.resetValue) ∧ t.Inv
      ∧ t.entropy = s.entropy ∧ t.drawn = s.drawn

/-- The model's choice (log 1): a reset consumes its event, keeps the events still pending, the responses given and the
entropy offered, and leaves all else as right after reset; and a step with no event pending leaves the whole state as it
was, since the block never advances on its own (R313, R315). -/
def Obligations.ResetKeepsInputsAndIdleStepHolds : Prop :=
  (∀ (s : State) (es : List Event), s.events = .reset :: es →
    step s = .next { State.reset with
      entropy := s.entropy, drawn := s.drawn, events := es, responses := s.responses })
  ∧ ∀ s : State, s.events = [] → step s = .next s

/-- R341: reset while a command runs keeps none of its writes; the reset state results and the CMD write completes. That
one response is appended and that the pending events stay is the model's choice (log 1, log 7). -/
def Obligations.ResetDuringCommandAbandonsIt : Prop :=
  ∀ (w : Word) (taken : Nat) (s : State) (es : List Event), s.events = .resetDuring w taken :: es →
    ∃ (t : State) (r : Response), step s = .next t ∧ (∀ q : Reg, readReg t q = q.resetValue)
      ∧ t.events = es ∧ t.responses = s.responses ++ [r]

/-- R82, R83, R87: a step whose next event is an admitted read answers the register that R56 lists at the offset, and 0 for
CMD and at every unlisted offset; nothing else changes. The offsets and the registers are written out from R56. -/
def Obligations.AdmittedReadReturnsRegister : Prop :=
  ∀ (off : BitVec 8) (d : Word) (s : State) (es : List Event),
    s.events = .access { write := false, off := off, be := 0xF, data := d } :: es → off.toNat % 4 = 0 →
    step s = .next { s with
      events := es,
      responses := s.responses ++ [.readOk (
        match off.toNat with
        | 0x04 => s.status
        | 0x08 => s.errflags
        | 0x10 => s.arg0
        | 0x14 => s.arg1
        | 0x18 => s.arg2
        | 0x1C => s.arg3
        | 0x20 => s.arg4
        | 0x40 => s.ca.state
        | 0x44 => s.ca.cfg
        | 0x50 => s.lfsr.state
        | 0x54 => s.lfsr.cfg
        | 0x58 => s.lfsr.rule
        | 0x5C => s.lfsr.taps
        | 0x60 => s.lfsr.saved
        | 0x70 => s.sel.choose
        | 0x74 => s.sel.cfg
        | 0x78 => s.sel.m
        | 0x7C => s.sel.mask
        | 0x80 => s.sel.idx0
        | 0x84 => s.sel.idx1
        | 0x88 => s.sel.idx2
        | 0x8C => s.sel.idx3
        | 0x90 => s.sel.idx4
        | 0x94 => s.sel.idx5
        | 0x98 => s.sel.idx6
        | 0x9C => s.sel.idx7
        | 0xA0 => s.pend.th1
        | 0xA4 => s.pend.w1
        | 0xA8 => s.pend.th2
        | 0xAC => s.pend.w2
        | 0xB0 => s.pend.l1
        | 0xB4 => s.pend.l2
        | 0xB8 => s.pend.m1
        | 0xBC => s.pend.m2
        | 0xC0 => s.pend.dt
        | 0xC4 => 0x09CCCCCD
        | 0xC8 => s.pend.outT1
        | 0xCC => s.pend.outX1
        | 0xD0 => s.pend.outY1
        | 0xD4 => s.pend.outT2
        | 0xD8 => s.pend.outX2
        | 0xDC => s.pend.outY2
        | 0xE0 => s.pend.drvDth1
        | 0xE4 => s.pend.drvDw1
        | 0xE8 => s.pend.drvDth2
        | 0xEC => s.pend.drvDw2
        | _ => 0)] }

/-- R83, R87, R34: what a step whose next event is an admitted write does, at every offset other than CMD. An argument
register takes the value; a 1 written to ERRFLAGS clears the bit and a 0 leaves it; a read-only register or an unlisted
offset, which are all the others, ignores the write. The access completes without error and nothing else changes. -/
def Obligations.AdmittedWriteEffects : Prop :=
  ∀ (off : BitVec 8) (v : Word) (s : State) (es : List Event),
    s.events = .access { write := true, off := off, be := 0xF, data := v } :: es →
    let t : State := { s with events := es, responses := s.responses ++ [.writeOk] }
    (off = 0x10 → step s = .next { t with arg0 := v })
    ∧ (off = 0x14 → step s = .next { t with arg1 := v })
    ∧ (off = 0x18 → step s = .next { t with arg2 := v })
    ∧ (off = 0x1C → step s = .next { t with arg3 := v })
    ∧ (off = 0x20 → step s = .next { t with arg4 := v })
    ∧ (off = 0x08 → ∃ f : Word, step s = .next { t with errflags := f }
        ∧ ∀ i, f.getLsbD i = (s.errflags.getLsbD i && !v.getLsbD i))
    ∧ (off.toNat % 4 = 0 → off.toNat ∉ [0x00, 0x08, 0x10, 0x14, 0x18, 0x1C, 0x20] → step s = .next t)

/-- R84, R316: an access that is narrow, partial or misaligned gets the error response and changes no register; a refused
read returns 0. That this is a next state and no stop is the model's choice (log 5). -/
def Obligations.RefusedAccessChangesNothing : Prop :=
  ∀ (a : Access) (s : State) (es : List Event),
    s.events = .access a :: es → (a.be ≠ 0xF ∨ a.off.toNat % 4 ≠ 0) →
    step s = .next { s with
      events := es, responses := s.responses ++ [if a.write then .writeError else .readError 0] }

/-! ### Every command (60_exceptions.md) -/

/-- R302, R303: a command, and a word that fails decode, either ends OK, with RESULT 0 and ERRFLAGS unchanged, or with an
error code c of 1 to 6, and then every register keeps its value except STATUS, which is c, and bit c of ERRFLAGS, which is
set; and no entropy word is consumed. A word that fails decode ends with code 6. -/
def Obligations.CommandsEndOkOrPrecisely : Prop :=
  (∀ (i : Instr) (s t : State), exec i s = .next t →
    (t.status = 0 ∧ t.errflags = s.errflags) ∨
    ∃ c : Nat, 1 ≤ c ∧ c ≤ 6 ∧
      t = { s with status := BitVec.ofNat 32 c, errflags := s.errflags ||| 1#32 <<< c })
  ∧ (∀ (w : Word) (e : DecodeError) (s : State), decode w = .error e →
    execute w s = .next { s with status := 6, errflags := s.errflags ||| 1#32 <<< 6 })

/-- R306: the results each command can end with, and the result of a word that fails decode. -/
def Obligations.ResultsByCommand : Prop :=
  (∀ (i : Instr) (s t : State), exec i s = .next t → t.status.toNat ∈ possibleResults i)
  ∧ (∀ (w : Word) (e : DecodeError) (s t : State),
    decode w = .error e → execute w s = .next t → t.status.toNat = 6)

/-- R31: no command writes an argument register. -/
def Obligations.CommandsKeepArguments : Prop :=
  ∀ (i : Instr) (s t : State), exec i s = .next t →
    t.arg0 = s.arg0 ∧ t.arg1 = s.arg1 ∧ t.arg2 = s.arg2 ∧ t.arg3 = s.arg3 ∧ t.arg4 = s.arg4

/-- R2: no command writes a unit that is not its own, and what it leaves in its own unit and in STATUS does not depend on
any other unit. -/
def Obligations.UnitsAreIndependent : Prop :=
  (∀ (i : Instr) (s t : State), exec i s = .next t →
    (Owner.of i ≠ .ca → t.ca = s.ca) ∧ (Owner.of i ≠ .lfsr → t.lfsr = s.lfsr)
      ∧ (Owner.of i ≠ .sel → t.sel = s.sel) ∧ (Owner.of i ≠ .pend → t.pend = s.pend))
  ∧ (∀ (i : Instr) (s t : State) (ca : CaUnit) (lfsr : LfsrUnit) (sel : SelUnit) (pend : PendUnit),
    exec i s = .next t →
    ∃ t' : State,
      exec i { s with
        ca := if Owner.of i = .ca then s.ca else ca,
        lfsr := if Owner.of i = .lfsr then s.lfsr else lfsr,
        sel := if Owner.of i = .sel then s.sel else sel,
        pend := if Owner.of i = .pend then s.pend else pend } = .next t'
      ∧ t'.status = t.status ∧ t'.errflags = t.errflags ∧ t'.entropy = t.entropy ∧ t'.drawn = t.drawn
      ∧ (Owner.of i = .ca → t'.ca = t.ca) ∧ (Owner.of i = .lfsr → t'.lfsr = t.lfsr)
      ∧ (Owner.of i = .sel → t'.sel = t.sel) ∧ (Owner.of i = .pend → t'.pend = t.pend))

/-- R57: no command behaves differently because of RESULT or ERRFLAGS. -/
def Obligations.StatusIsNeverRead : Prop :=
  ∀ (i : Instr) (s t : State) (status errflags : Word), exec i s = .next t →
    ∃ f : Word, exec i { s with status := status, errflags := errflags } = .next { t with errflags := f }

/-- R98, R310(d): a command that does not draw takes no entropy word. -/
def Obligations.OnlyDrawingCommandsTakeEntropy : Prop :=
  ∀ (i : Instr) (s t : State), exec i s = .next t → drawsEntropy i = false →
    t.entropy = s.entropy ∧ t.drawn = s.drawn

/-- R290: NOP changes only RESULT, the word 0 is NOP, and no other word with opcode 0 is a command. -/
def Obligations.NopEffect : Prop :=
  (∀ s : State, exec .nop s = .next { s with status := 0 })
  ∧ decode 0x00000000 = .ok .nop
  ∧ ∀ w : Word, w.toNat < 2 ^ 24 → w ≠ 0 → decode w = .error (.reservedBit .nop)

/-! ### The CA unit (40_ca.md) -/

/-- R140: CA_INIT with every field value the encoding holds. -/
def Obligations.CaInitEffect : Prop :=
  ∀ (len rule : Nat) (s : State), WellFormed (.caInit len rule) →
    (3 ≤ len ∧ len ≤ 32 →
      exec (.caInit len rule) s = .next { s with
        status := 0, ca := { state := 0, cfg := BitVec.ofNat 32 (rule * 256 + len) } })
    ∧ (len < 3 ∨ 32 < len →
      exec (.caInit len rule) s = .next { s with status := 1, errflags := s.errflags ||| 2 })

/-- R141: RULE is written, LEN and the cells stay, the reserved bits are 0. -/
def Obligations.CaSetRuleEffect : Prop :=
  ∀ (rule : Nat) (s : State), WellFormed (.caSetRule rule) →
    ∃ cfg : Word, exec (.caSetRule rule) s = .next { s with status := 0, ca := { s.ca with cfg := cfg } }
      ∧ cfg.toNat % 64 = s.ca.cfg.toNat % 64 ∧ cfg.toNat / 256 % 256 = rule ∧ cfg &&& 0xFFFF00C0 = 0

/-- R142: the cells take bits L - 1 to 0 of ARG0, and the bits above are dropped. -/
def Obligations.CaSetStateEffect : Prop :=
  ∀ s : State, ∃ v : Word, exec .caSetState s = .next { s with status := 0, ca := { s.ca with state := v } }
    ∧ ∀ j, v.getLsbD j = (decide (j < s.ca.len) && s.arg0.getLsbD j)

/-- R143, R98: CA_RANDOMIZE takes one entropy word and keeps its low L bits, so that every value from 0 to 2^L - 1 may
result; where no word is listed the value is some value below 2^L that the model does not fix (log 3). -/
def Obligations.CaRandomizeEffect : Prop :=
  (∀ (s : State) (w : Word) (ws : List Word), s.entropy = w :: ws →
    ∃ v : Word, exec .caRandomize s = .next { s with status := 0, entropy := ws, ca := { s.ca with state := v } }
      ∧ ∀ j, v.getLsbD j = (decide (j < s.ca.len) && w.getLsbD j))
  ∧ (∀ s : State, s.entropy = [] →
    ∃ v : Word, v.toNat < 2 ^ s.ca.len
      ∧ exec .caRandomize s = .next { s with
          status := 0, drawn := s.drawn + 1, ca := { s.ca with state := v } })
  ∧ (∀ (s : State) (v : Word), v.toNat < 2 ^ s.ca.len →
    ∃ w : Word, exec .caRandomize { s with entropy := [w] }
      = .next { s with status := 0, entropy := [], ca := { s.ca with state := v } })

/-- R144. -/
def Obligations.CaResetStateEffect : Prop :=
  ∀ s : State, exec .caResetState s = .next { s with status := 0, ca := { s.ca with state := 0 } }

/-- R145, R146, R148: on a ring of L cells, new cell i is the bit of RULE that the neighbourhood code of old cell i
names, left neighbour most significant, indices modulo L; bits L and above are 0. -/
def Obligations.CaAdvanceEffect : Prop :=
  ∀ s : State, 3 ≤ s.ca.len → s.ca.len ≤ 32 →
    ∃ v : Word, exec .caAdvance s = .next { s with status := 0, ca := { s.ca with state := v } }
      ∧ (∀ j, s.ca.len ≤ j → v.getLsbD j = false)
      ∧ ∀ i < s.ca.len,
          seqBit v s.ca.len i = s.ca.cfg.getLsbD
            (8 + (4 * (seqBit s.ca.state s.ca.len ((i + s.ca.len - 1) % s.ca.len)).toNat
              + 2 * (seqBit s.ca.state s.ca.len i).toNat
              + (seqBit s.ca.state s.ca.len ((i + 1) % s.ca.len)).toNat))

/-- R147: CA_NEXT is the sum over the bits p of the table entry of the code of p's neighbourhood, its bits L and above are
0, and the sum form and the parallel form give the same value for every state, length and rule. -/
def Obligations.CaSumAndParallelFormsAgree : Prop :=
  ∀ (v : Word) (len rule : Nat), 3 ≤ len → len ≤ 32 → v.toNat < 2 ^ len →
    (caNext v len rule).toNat
      = ∑ p ∈ Finset.range len,
          (rule.testBit (4 * (v.getLsbD ((p + 1) % len)).toNat + 2 * (v.getLsbD p).toNat
            + (v.getLsbD ((p + len - 1) % len)).toNat)).toNat * 2 ^ p
    ∧ (caNext v len rule).toNat < 2 ^ len
    ∧ caNext v len rule = caNextParallel v len rule

/-- R149(a) to (f), on every ring of 3 to 32 cells. -/
def Obligations.CaRuleLaws : Prop :=
  ∀ (v : Word) (len : Nat), 3 ≤ len → len ≤ 32 → v.toNat < 2 ^ len →
    caNext v len 0 = 0
    ∧ (caNext v len 255).toNat = 2 ^ len - 1
    ∧ (∀ rule, rule % 2 = 0 → caNext 0 len rule = 0)
    ∧ (∀ rule, 128 ≤ rule → rule ≤ 255 →
        caNext (BitVec.ofNat 32 (2 ^ len - 1)) len rule = BitVec.ofNat 32 (2 ^ len - 1))
    ∧ caNext v len 204 = v
    ∧ caNext v len 51 = lowBits (~~~v) len
    ∧ caNext v len 170 = ringUp v len
    ∧ caNext v len 240 = ringDown v len
    ∧ caNext v len 90 = ringUp v len ^^^ ringDown v len

/-! ### The LFSR unit (41_lfsr.md) -/

/-- R171: the taps are the positions i + 1 of the set bits i of 0 to 7, and the mask has exactly those bits. -/
def Obligations.TapsAreLowRuleBits : Prop :=
  ∀ rule t : Nat,
    (t ∈ taps rule ↔ ∃ i, i ≤ 7 ∧ rule.testBit i = true ∧ t = i + 1)
    ∧ (tapMask rule).getLsbD t = decide (t ∈ taps rule)

/-- R170: the range is tested first; a tap above n - 1 is refused; a tap below 1 cannot arise; and INVALID_TAP arises
exactly when n ≤ 8 and the rule number is 2^(n - 1). -/
def Obligations.CheckRuleDecidesRule : Prop :=
  ∀ rule n : Nat, 2 ≤ n →
    (∀ t ∈ taps rule, 1 ≤ t) ∧
    (checkRule rule n = some .configError ↔ rule < 1 ∨ 2 ^ (n - 1) < rule)
    ∧ (checkRule rule n = some .invalidTap ↔
        (1 ≤ rule ∧ rule ≤ 2 ^ (n - 1)) ∧ ∃ t ∈ taps rule, n - 1 < t)
    ∧ (checkRule rule n = some .invalidTap ↔ n ≤ 8 ∧ rule = 2 ^ (n - 1))
    ∧ (checkRule rule n = none ∨ checkRule rule n = some .configError ∨ checkRule rule n = some .invalidTap)

/-- R172: LFSR_INIT with every width the encoding holds and every argument. -/
def Obligations.LfsrInitEffect : Prop :=
  ∀ (n : Nat) (s : State), WellFormed (.lfsrInit n) →
    ((2 ≤ n ∧ n ≤ 32) ∧ (s.arg0 ≠ 0 ∧ s.arg0.toNat < 2 ^ n) ∧ (1 ≤ s.arg1.toNat ∧ s.arg1.toNat ≤ 2 ^ (n - 1))
        ∧ ¬ (n ≤ 8 ∧ s.arg1.toNat = 2 ^ (n - 1)) →
      exec (.lfsrInit n) s = .next { s with
        status := 0,
        lfsr := { state := s.arg0, cfg := BitVec.ofNat 32 n, rule := s.arg1,
                  taps := BitVec.ofNat 32 (s.arg1.toNat % 256 * 2), saved := s.arg0 } })
    ∧ (n < 2 ∨ 32 < n ∨ s.arg0 = 0 ∨ 2 ^ n ≤ s.arg0.toNat ∨ s.arg1.toNat < 1 ∨ 2 ^ (n - 1) < s.arg1.toNat →
      exec (.lfsrInit n) s = .next { s with status := 1, errflags := s.errflags ||| 2 })
    ∧ ((2 ≤ n ∧ n ≤ 8) ∧ (s.arg0 ≠ 0 ∧ s.arg0.toNat < 2 ^ n) ∧ s.arg1.toNat = 2 ^ (n - 1) →
      exec (.lfsrInit n) s = .next { s with status := 2, errflags := s.errflags ||| 4 })

/-- R173: LFSR_SET_RULE for every legal width and every argument. -/
def Obligations.LfsrSetRuleEffect : Prop :=
  ∀ s : State, 2 ≤ s.lfsr.nbits → s.lfsr.nbits ≤ 32 →
    ((1 ≤ s.arg0.toNat ∧ s.arg0.toNat ≤ 2 ^ (s.lfsr.nbits - 1))
        ∧ ¬ (s.lfsr.nbits ≤ 8 ∧ s.arg0.toNat = 2 ^ (s.lfsr.nbits - 1)) →
      exec .lfsrSetRule s = .next { s with
        status := 0,
        lfsr := { s.lfsr with rule := s.arg0, taps := BitVec.ofNat 32 (s.arg0.toNat % 256 * 2) } })
    ∧ (s.arg0.toNat < 1 ∨ 2 ^ (s.lfsr.nbits - 1) < s.arg0.toNat →
      exec .lfsrSetRule s = .next { s with status := 1, errflags := s.errflags ||| 2 })
    ∧ (s.lfsr.nbits ≤ 8 ∧ s.arg0.toNat = 2 ^ (s.lfsr.nbits - 1) →
      exec .lfsrSetRule s = .next { s with status := 2, errflags := s.errflags ||| 4 })

/-- R174: the state and the saved state take bits N - 1 to 0 of ARG0; 0 is accepted. -/
def Obligations.LfsrSetStateEffect : Prop :=
  ∀ s : State, ∃ v : Word,
    exec .lfsrSetState s = .next { s with status := 0, lfsr := { s.lfsr with state := v, saved := v } }
      ∧ ∀ j, v.getLsbD j = (decide (j < s.lfsr.nbits) && s.arg0.getLsbD j)

/-- R175, R98: LFSR_RANDOMIZE skips words whose low N bits are 0 and takes the first other word's low N bits; where the
listed words run out the value is some value of 1 to 2^N - 1 (log 4). LFSR_SAVED stays. -/
def Obligations.LfsrRandomizeEffect : Prop :=
  (∀ (s : State) (skipped : List Word) (w : Word) (ws : List Word),
    s.entropy = skipped ++ w :: ws → (∀ x ∈ skipped, x.toNat % 2 ^ s.lfsr.nbits = 0) →
    w.toNat % 2 ^ s.lfsr.nbits ≠ 0 →
    exec .lfsrRandomize s = .next { s with
      status := 0, entropy := ws,
      lfsr := { s.lfsr with state := BitVec.ofNat 32 (w.toNat % 2 ^ s.lfsr.nbits) } })
  ∧ (∀ s : State, 2 ≤ s.lfsr.nbits → s.lfsr.nbits ≤ 32 →
    (∀ x ∈ s.entropy, x.toNat % 2 ^ s.lfsr.nbits = 0) →
    ∃ v : Word, 1 ≤ v.toNat ∧ v.toNat ≤ 2 ^ s.lfsr.nbits - 1
      ∧ exec .lfsrRandomize s = .next { s with
          status := 0, entropy := [], drawn := s.drawn + 1, lfsr := { s.lfsr with state := v } })

/-- R176: LFSR_RESET_STATE restores the saved state. The value is that of the last LFSR_SET_STATE, for every value that fits
in N bits, or of the last successful LFSR_INIT, or 1 if neither has run since reset, whatever other accesses and commands
come between; so too after any number of advances. -/
def Obligations.LfsrResetStateEffect : Prop :=
  (∀ s : State, exec .lfsrResetState s = .next { s with
    status := 0, lfsr := { s.lfsr with state := s.lfsr.saved } })
  ∧ (∀ (s : State) (count : Nat), s.arg0.toNat < 2 ^ s.lfsr.nbits →
    ∃ t0 t1 t2 : State, exec .lfsrSetState s = .next t0 ∧ execTimes .lfsrAdvance count t0 = .next t1
      ∧ exec .lfsrResetState t1 = .next t2 ∧ t2.lfsr.state = s.arg0 ∧ t2.lfsr.saved = s.arg0)
  ∧ (∀ s : State, s.arg0.toNat < 2 ^ s.lfsr.nbits →
    ∃ t : State, exec .lfsrSetState s = .next t ∧ restoresSaved t s.arg0)
  ∧ (∀ (n : Nat) (s t : State), exec (.lfsrInit n) s = .next t → t.status = 0 → restoresSaved t s.arg0)
  ∧ (∀ (s : State) (es : List Event), s.events = .reset :: es →
    ∃ t : State, step s = .next t ∧ restoresSaved t 1)

/-- R177, R178: the state moves down one bit, and bit N - 1 takes the XOR of bit 0 and of the bits at the taps, each tap
i + 1 for a set bit i of LFSR_RULE[7:0]; bits N and above are 0. -/
def Obligations.LfsrAdvanceEffect : Prop :=
  ∀ s : State, 2 ≤ s.lfsr.nbits → s.lfsr.nbits ≤ 32 → s.lfsr.state.toNat < 2 ^ s.lfsr.nbits →
    ∃ v : Word, exec .lfsrAdvance s = .next { s with status := 0, lfsr := { s.lfsr with state := v } }
      ∧ (∀ j, j + 1 < s.lfsr.nbits → v.getLsbD j = s.lfsr.state.getLsbD (j + 1))
      ∧ v.getLsbD (s.lfsr.nbits - 1)
          = (List.range 8).foldl
              (fun b i => b ^^ (s.lfsr.rule.getLsbD i && s.lfsr.state.getLsbD (i + 1)))
              (s.lfsr.state.getLsbD 0)
      ∧ (∀ j, s.lfsr.nbits ≤ j → v.getLsbD j = false)

/-- R179(a): with a legal rule number the advance is a bijection on the 2^N states, so every state lies on a cycle. -/
def Obligations.LfsrAdvanceIsBijection : Prop :=
  ∀ n rule : Nat, 2 ≤ n → n ≤ 32 → checkRule rule n = none →
    Set.BijOn (fun v => lfsrNext v n rule) { v : Word | v.toNat < 2 ^ n } { v : Word | v.toNat < 2 ^ n }

/-- R179(b), (c): 0 maps to 0 and no other state does, and with an empty tap set the advance rotates the state right by
one place within N bits. -/
def Obligations.LfsrZeroAndRotationLaws : Prop :=
  ∀ (n rule : Nat) (v : Word), 2 ≤ n → n ≤ 32 → checkRule rule n = none → v.toNat < 2 ^ n →
    (lfsrNext v n rule = 0 ↔ v = 0)
    ∧ (rule % 256 = 0 → (lfsrNext v n rule).toNat = v.toNat / 2 + v.toNat % 2 * 2 ^ (n - 1))

/-! ### The SEL unit (42_selector.md) -/

/-- R200: choose is 0 for n < k, else n!/(k!(n-k)!), and every value for n ≤ 32 is at most choose(32, 16) = 601080390. -/
def Obligations.BinomialIsSubsetCount : Prop :=
  ∀ n k : Nat,
    (n < k → binomial n k = 0)
    ∧ (k ≤ n → binomial n k = Nat.factorial n / (Nat.factorial k * Nat.factorial (n - k)))
    ∧ (n ≤ 32 → binomial n k ≤ 601080390)
    ∧ binomial 32 16 = 601080390
    ∧ binomial n 0 = 1 ∧ binomial n n = 1 ∧ binomial n 1 = n

/-- R202: SEL_CHOOSE with every field value the encoding holds. -/
def Obligations.SelChooseEffect : Prop :=
  ∀ (n k : Nat) (s : State), WellFormed (.selChoose n k) →
    (n ≤ 32 ∧ k ≤ 32 →
      ∃ v : Word, v.toNat = Nat.choose n k
        ∧ exec (.selChoose n k) s = .next { s with status := 0, sel := { s.sel with choose := v } })
    ∧ (32 < n ∨ 32 < k →
      exec (.selChoose n k) s = .next { s with status := 1, errflags := s.errflags ||| 2 })

/-- R205: a combination has k entries, strictly increasing, each below n; and for n ≤ 32 its mask has exactly k bits set,
all below bit n. -/
def Obligations.CombinationShape : Prop :=
  ∀ n k m : Nat, m < Nat.choose n k →
    (combination n k m).length = k
    ∧ (combination n k m).Pairwise (· < ·)
    ∧ (∀ e ∈ combination n k m, e < n)
    ∧ (n ≤ 32 → (List.range n).countP (fun j => (selMask (combination n k m)).getLsbD j) = k
        ∧ ∀ j, n ≤ j → (selMask (combination n k m)).getLsbD j = false)

/-- R204: m ↦ combination(n, k, m) is a strictly increasing bijection, in lexicographic order, from 0 to choose(n, k) - 1
onto the increasing k-sequences below n; the first is 0 to k - 1 and the last n - k to n - 1; and the sequence of (5, 2)
is the one R204 lists. -/
def Obligations.CombinationIsLexicographicBijection : Prop :=
  (∀ n k m m' : Nat, m < m' → m' < Nat.choose n k →
    List.Lex (· < ·) (combination n k m) (combination n k m'))
  ∧ (∀ (n k : Nat) (l : List Nat), l.length = k → l.Pairwise (· < ·) → (∀ e ∈ l, e < n) →
    ∃ m, m < Nat.choose n k ∧ combination n k m = l)
  ∧ (∀ n k : Nat, k ≤ n →
    combination n k 0 = List.range k
    ∧ combination n k (Nat.choose n k - 1) = (List.range k).map (n - k + ·))
  ∧ (List.range 10).map (combination 5 2)
      = [[0, 1], [0, 2], [0, 3], [0, 4], [1, 2], [1, 3], [1, 4], [2, 3], [2, 4], [3, 4]]

/-- R203: SEL_COMBINATION with every field value the encoding holds and every m. On success the mask has a bit for each
index and the bytes hold the sequence, 0xFF after its end; SEL_CHOOSE stays. -/
def Obligations.SelCombinationEffect : Prop :=
  ∀ (n k : Nat) (s : State), WellFormed (.selCombination n k) →
    (n ≤ 32 ∧ k ≤ 32 ∧ s.arg0.toNat < Nat.choose n k →
      ∃ u : SelUnit, exec (.selCombination n k) s = .next { s with status := 0, sel := u }
        ∧ u.choose = s.sel.choose ∧ u.cfg = BitVec.ofNat 32 (n * 256 + k) ∧ u.m = s.arg0
        ∧ (∀ j, u.mask.getLsbD j = decide (j ∈ combination n k s.arg0.toNat))
        ∧ (∀ e, e < 32 →
            u.entry e = if e < k then (combination n k s.arg0.toNat).getD e 0 else 0xFF))
    ∧ (32 < n ∨ 32 < k →
      exec (.selCombination n k) s = .next { s with status := 1, errflags := s.errflags ||| 2 })
    ∧ (n ≤ 32 ∧ k ≤ 32 ∧ Nat.choose n k ≤ s.arg0.toNat →
      exec (.selCombination n k) s = .next { s with status := 3, errflags := s.errflags ||| 8 })

/-! ### The PEND unit (43_pendulum.md) -/

/-- R232, R233: mul floors, is commutative and is not associative; div by a positive divisor truncates toward zero. -/
def Obligations.MulFloorsAndDivTruncates : Prop :=
  (∀ a b : Int, qmul a b * 2 ^ 24 ≤ a * b ∧ a * b < (qmul a b + 1) * 2 ^ 24 ∧ qmul a b = qmul b a)
  ∧ (∃ a b c : Int, qmul (qmul a b) c ≠ qmul a (qmul b c))
  ∧ (∀ a b : Int, 0 < b →
      (0 ≤ a → 0 ≤ qdiv a b ∧ qdiv a b * b ≤ a * 2 ^ 24 ∧ a * 2 ^ 24 < (qdiv a b + 1) * b)
      ∧ (a ≤ 0 → qdiv a b ≤ 0 ∧ (qdiv a b - 1) * b < a * 2 ^ 24 ∧ a * 2 ^ 24 ≤ qdiv a b * b))

/-- R239: the exact values of SIN and COS at the quarter turns and at an eighth, and the two symmetries. -/
def Obligations.SinExactValuesAndSymmetries : Prop :=
  (qsin 0 = 0 ∧ qsin 0x40000000 = 2 ^ 24 ∧ qsin 0x80000000 = 0 ∧ qsin 0xC0000000 = -2 ^ 24
    ∧ qcos 0 = 2 ^ 24 ∧ qcos 0x40000000 = 0 ∧ qcos 0x80000000 = -2 ^ 24 ∧ qcos 0xC0000000 = 0
    ∧ qsin 0x20000000 = 11868394)
  ∧ ∀ a : Word, qsin (-a) = -qsin a ∧ qsin (0x80000000 - a) = qsin a

/-- R239: SIN and COS never exceed 1.0 in magnitude, at any of the 2^32 angles. -/
def Obligations.SinIsBounded : Prop :=
  ∀ a : Word, -2 ^ 24 ≤ qsin a ∧ qsin a ≤ 2 ^ 24 ∧ -2 ^ 24 ≤ qcos a ∧ qcos a ≤ 2 ^ 24

/-- R249: every position fits in 32 bits, since its magnitude is at most the arm's length. -/
def Obligations.PositionsFit : Prop :=
  ∀ len t : Word, 0 < sext32 len →
    (-sext32 len ≤ posX len t ∧ posX len t ≤ sext32 len ∧ fitsS32 (posX len t))
    ∧ (-sext32 len ≤ posY len t ∧ posY len t ≤ sext32 len ∧ fitsS32 (posY len t))

/-- R250, R98: PEND_INIT refuses any value that is zero or negative, and draws nothing then; else it takes the constants,
and θ1 and θ2 are two entropy words in that order. Where fewer than two words are listed, the listed one comes first and
each missing one is a value that the model does not fix (log 3). -/
def Obligations.PendInitEffect : Prop :=
  ∀ s : State,
    ((s.arg0.toInt ≤ 0 ∨ s.arg1.toInt ≤ 0 ∨ s.arg2.toInt ≤ 0 ∨ s.arg3.toInt ≤ 0 ∨ s.arg4.toInt ≤ 0) →
      exec .pendInit s = .next { s with status := 1, errflags := s.errflags ||| 2 })
    ∧ (0 < s.arg0.toInt ∧ 0 < s.arg1.toInt ∧ 0 < s.arg2.toInt ∧ 0 < s.arg3.toInt ∧ 0 < s.arg4.toInt →
      let started (a b : Word) : PendUnit :=
        { s.pend with l1 := s.arg0, l2 := s.arg1, m1 := s.arg2, m2 := s.arg3, dt := s.arg4,
                      th1 := a, th2 := b, w1 := 0, w2 := 0 }
      (∀ (a b : Word) (ws : List Word), s.entropy = a :: b :: ws →
        exec .pendInit s = .next { s with status := 0, entropy := ws, pend := started a b })
      ∧ (∀ a : Word, s.entropy = [a] →
        ∃ b : Word, exec .pendInit s = .next { s with
          status := 0, entropy := [], drawn := s.drawn + 1, pend := started a b })
      ∧ (s.entropy = [] →
        ∃ a b : Word, exec .pendInit s = .next { s with
          status := 0, entropy := [], drawn := s.drawn + 2, pend := started a b }))

/-- R251. -/
def Obligations.PendSetStateEffect : Prop :=
  ∀ s : State, exec .pendSetState s = .next { s with
    status := 0, pend := { s.pend with th1 := s.arg0, w1 := s.arg1, th2 := s.arg2, w2 := s.arg3 } }

/-- R252. -/
def Obligations.PendSetDtEffect : Prop :=
  ∀ s : State,
    (0 < s.arg0.toInt → exec .pendSetDt s = .next { s with status := 0, pend := { s.pend with dt := s.arg0 } })
    ∧ (s.arg0.toInt ≤ 0 → exec .pendSetDt s = .next { s with status := 1, errflags := s.errflags ||| 2 })

/-- R253, R98: θ1 and θ2 are two entropy words in that order. Where fewer than two words are listed, the listed one comes
first and each missing one is a value that the model does not fix (log 3). -/
def Obligations.PendRandomizeEffect : Prop :=
  ∀ s : State,
    let started (a b : Word) : PendUnit := { s.pend with th1 := a, th2 := b, w1 := 0, w2 := 0 }
    (∀ (a b : Word) (ws : List Word), s.entropy = a :: b :: ws →
      exec .pendRandomize s = .next { s with status := 0, entropy := ws, pend := started a b })
    ∧ (∀ a : Word, s.entropy = [a] →
      ∃ b : Word, exec .pendRandomize s = .next { s with
        status := 0, entropy := [], drawn := s.drawn + 1, pend := started a b })
    ∧ (s.entropy = [] →
      ∃ a b : Word, exec .pendRandomize s = .next { s with
        status := 0, entropy := [], drawn := s.drawn + 2, pend := started a b })

/-- R241 to R247: DERIVS, with every term written out as the rules give it. It fails exactly when den1 ≤ 0 or den2 ≤ 0
(R246). -/
def Obligations.DerivsFollowTheEquations : Prop :=
  ∀ (p : PendUnit) (th1 th2 : Word) (w1 w2 : Int),
    let l1 := p.l1.toInt
    let l2 := p.l2.toInt
    let m1 := p.m1.toInt
    let m2 := p.m2.toInt
    let g : Int := 164416717
    let s1 := qsin th1
    let s2 := qsin th2
    let sd := qsin (th2 - th1)
    let cd := qcos (th2 - th1)
    let m := m1 + m2
    let d1 := qmul m l1 - qmul (qmul (qmul m2 l1) cd) cd
    let n1 := qmul (qmul (qmul (qmul (qmul m2 l1) w1) w1) sd) cd + qmul (qmul (qmul m2 g) s2) cd
                + qmul (qmul (qmul (qmul m2 l2) w2) w2) sd - qmul (qmul m g) s1
    let d2 := qmul (qdiv l2 l1) d1
    let n2 := 0 - qmul (qmul (qmul (qmul (qmul m2 l2) w2) w2) sd) cd + qmul (qmul (qmul m g) s1) cd
                - qmul (qmul (qmul (qmul m l1) w1) w1) sd - qmul (qmul m g) s2
    (d1 ≤ 0 ∨ d2 ≤ 0 → derivs p th1 w1 th2 w2 = none)
    ∧ (0 < d1 ∧ 0 < d2 →
      derivs p th1 w1 th2 w2 = some { dth1 := w1, dw1 := qdiv n1 d1, dth2 := w2, dw2 := qdiv n2 d2 })

/-- R255: PEND_DERIVS latches DERIVS of the current state; NUM_DEGENERACY precedes NUM_OVERFLOW, the state does not
advance, and d0 and d2 always fit because they are PEND_W1 and PEND_W2. -/
def Obligations.PendDerivsEffect : Prop :=
  ∀ s : State,
    (derivs s.pend s.pend.th1 s.pend.w1.toInt s.pend.th2 s.pend.w2.toInt = none →
      exec .pendDerivs s = .next { s with status := 4, errflags := s.errflags ||| 0x10 })
    ∧ ∀ d : Derivs, derivs s.pend s.pend.th1 s.pend.w1.toInt s.pend.th2 s.pend.w2.toInt = some d →
      (fitsS32 d.dw1 ∧ fitsS32 d.dw2 →
        exec .pendDerivs s = .next { s with
          status := 0,
          pend := { s.pend with drvDth1 := s.pend.w1, drvDw1 := BitVec.ofInt 32 d.dw1,
                                drvDth2 := s.pend.w2, drvDw2 := BitVec.ofInt 32 d.dw2 } })
      ∧ (¬ (fitsS32 d.dw1 ∧ fitsS32 d.dw2) →
        exec .pendDerivs s = .next { s with status := 5, errflags := s.errflags ||| 0x20 })

/-- R248, R249, R254, with ANG of R234 written out: PEND_ADVANCE takes one forward Euler step from the derivatives of the
old state, and the outputs come from the new angles. NUM_DEGENERACY precedes NUM_OVERFLOW. -/
def Obligations.PendAdvanceEffect : Prop :=
  ∀ s : State,
    let p := s.pend
    (derivs p p.th1 p.w1.toInt p.th2 p.w2.toInt = none →
      exec .pendAdvance s = .next { s with status := 4, errflags := s.errflags ||| 0x10 })
    ∧ ∀ d : Derivs, derivs p p.th1 p.w1.toInt p.th2 p.w2.toInt = some d →
      let dt := p.dt.toInt
      let th1 := p.th1 + BitVec.ofInt 32 (qmul dt d.dth1 * 683565276 / 2 ^ 24)
      let w1 := p.w1.toInt + qmul dt d.dw1
      let th2 := p.th2 + BitVec.ofInt 32 (qmul dt d.dth2 * 683565276 / 2 ^ 24)
      let w2 := p.w2.toInt + qmul dt d.dw2
      (fitsS32 w1 ∧ fitsS32 w2 →
        exec .pendAdvance s = .next { s with
          status := 0,
          pend := { p with
            th1 := th1, w1 := BitVec.ofInt 32 w1, th2 := th2, w2 := BitVec.ofInt 32 w2,
            outT1 := th1, outX1 := BitVec.ofInt 32 (qmul p.l1.toInt (qsin th1)),
            outY1 := BitVec.ofInt 32 (0 - qmul p.l1.toInt (qcos th1)),
            outT2 := th2, outX2 := BitVec.ofInt 32 (qmul p.l2.toInt (qsin th2)),
            outY2 := BitVec.ofInt 32 (0 - qmul p.l2.toInt (qcos th2)) } })
      ∧ (¬ (fitsS32 w1 ∧ fitsS32 w2) →
        exec .pendAdvance s = .next { s with status := 5, errflags := s.errflags ||| 0x20 })

/-- R256: hanging at rest (or upright at rest, θ1 = θ2 = 0x80000000) DERIVS is zero and the state is a fixed point of
PEND_ADVANCE, for every constants that pass R246 and every number of steps; the constants after reset pass, with both
denominators 1.0. -/
def Obligations.PendulumAtRestStaysAtRest : Prop :=
  (∀ (s : State) (a : Word) (count : Nat), (a = 0 ∨ a = 0x80000000) →
    s.pend.th1 = a → s.pend.th2 = a → s.pend.w1 = 0 → s.pend.w2 = 0 →
    derivs s.pend a 0 a 0 ≠ none →
    derivs s.pend a 0 a 0 = some { dth1 := 0, dw1 := 0, dth2 := 0, dw2 := 0 }
    ∧ ∃ t : State, execTimes .pendAdvance (count + 1) s = .next t
      ∧ t.status = 0 ∧ t.errflags = s.errflags
      ∧ t.pend.th1 = a ∧ t.pend.th2 = a ∧ t.pend.w1 = 0 ∧ t.pend.w2 = 0)
  ∧ den1 (terms PendUnit.reset 0 0 0 0) = 2 ^ 24 ∧ den2 (terms PendUnit.reset 0 0 0 0) = 2 ^ 24
  ∧ derivs PendUnit.reset 0 0 0 0 ≠ none
end

