-- ==== Sys2Proof/Laws/State.lean ====
section
/-! SUPPORT. One lemma per field per named update of the state, true by rfl, so that no later proof unfolds an update;
and the argument registers through `State.x`. -/

namespace Sys2Proof.Machine

/-! `finish` -/

@[simp] theorem finish_arg0 (s : State) : (finish s).arg0 = s.arg0 := rfl
@[simp] theorem finish_arg1 (s : State) : (finish s).arg1 = s.arg1 := rfl
@[simp] theorem finish_arg2 (s : State) : (finish s).arg2 = s.arg2 := rfl
@[simp] theorem finish_arg3 (s : State) : (finish s).arg3 = s.arg3 := rfl
@[simp] theorem finish_arg4 (s : State) : (finish s).arg4 = s.arg4 := rfl
@[simp] theorem finish_status (s : State) : (finish s).status = statusWord 0 := rfl
@[simp] theorem finish_errflags (s : State) : (finish s).errflags = s.errflags := rfl
@[simp] theorem finish_ca (s : State) : (finish s).ca = s.ca := rfl
@[simp] theorem finish_lfsr (s : State) : (finish s).lfsr = s.lfsr := rfl
@[simp] theorem finish_sel (s : State) : (finish s).sel = s.sel := rfl
@[simp] theorem finish_pend (s : State) : (finish s).pend = s.pend := rfl
@[simp] theorem finish_entropy (s : State) : (finish s).entropy = s.entropy := rfl
@[simp] theorem finish_drawn (s : State) : (finish s).drawn = s.drawn := rfl
@[simp] theorem finish_events (s : State) : (finish s).events = s.events := rfl
@[simp] theorem finish_responses (s : State) : (finish s).responses = s.responses := rfl
@[simp] theorem finish_x (s : State) (i : Fin 5) : (finish s).x i = s.x i := by fin_cases i <;> rfl

/-! `raise` -/

@[simp] theorem raise_arg0 (e : ErrorCode) (s : State) : (raise e s).arg0 = s.arg0 := rfl
@[simp] theorem raise_arg1 (e : ErrorCode) (s : State) : (raise e s).arg1 = s.arg1 := rfl
@[simp] theorem raise_arg2 (e : ErrorCode) (s : State) : (raise e s).arg2 = s.arg2 := rfl
@[simp] theorem raise_arg3 (e : ErrorCode) (s : State) : (raise e s).arg3 = s.arg3 := rfl
@[simp] theorem raise_arg4 (e : ErrorCode) (s : State) : (raise e s).arg4 = s.arg4 := rfl
@[simp] theorem raise_status (e : ErrorCode) (s : State) : (raise e s).status = statusWord e.code := rfl
@[simp] theorem raise_errflags (e : ErrorCode) (s : State) : (raise e s).errflags = setFlag s.errflags e := rfl
@[simp] theorem raise_ca (e : ErrorCode) (s : State) : (raise e s).ca = s.ca := rfl
@[simp] theorem raise_lfsr (e : ErrorCode) (s : State) : (raise e s).lfsr = s.lfsr := rfl
@[simp] theorem raise_sel (e : ErrorCode) (s : State) : (raise e s).sel = s.sel := rfl
@[simp] theorem raise_pend (e : ErrorCode) (s : State) : (raise e s).pend = s.pend := rfl
@[simp] theorem raise_entropy (e : ErrorCode) (s : State) : (raise e s).entropy = s.entropy := rfl
@[simp] theorem raise_drawn (e : ErrorCode) (s : State) : (raise e s).drawn = s.drawn := rfl
@[simp] theorem raise_events (e : ErrorCode) (s : State) : (raise e s).events = s.events := rfl
@[simp] theorem raise_responses (e : ErrorCode) (s : State) : (raise e s).responses = s.responses := rfl
@[simp] theorem raise_x (e : ErrorCode) (s : State) (i : Fin 5) : (raise e s).x i = s.x i := by fin_cases i <;> rfl

/-! `withCa` -/

@[simp] theorem withCa_arg0 (s : State) (c : CaUnit) : (s.withCa c).arg0 = s.arg0 := rfl
@[simp] theorem withCa_arg1 (s : State) (c : CaUnit) : (s.withCa c).arg1 = s.arg1 := rfl
@[simp] theorem withCa_arg2 (s : State) (c : CaUnit) : (s.withCa c).arg2 = s.arg2 := rfl
@[simp] theorem withCa_arg3 (s : State) (c : CaUnit) : (s.withCa c).arg3 = s.arg3 := rfl
@[simp] theorem withCa_arg4 (s : State) (c : CaUnit) : (s.withCa c).arg4 = s.arg4 := rfl
@[simp] theorem withCa_status (s : State) (c : CaUnit) : (s.withCa c).status = s.status := rfl
@[simp] theorem withCa_errflags (s : State) (c : CaUnit) : (s.withCa c).errflags = s.errflags := rfl
@[simp] theorem withCa_ca (s : State) (c : CaUnit) : (s.withCa c).ca = c := rfl
@[simp] theorem withCa_lfsr (s : State) (c : CaUnit) : (s.withCa c).lfsr = s.lfsr := rfl
@[simp] theorem withCa_sel (s : State) (c : CaUnit) : (s.withCa c).sel = s.sel := rfl
@[simp] theorem withCa_pend (s : State) (c : CaUnit) : (s.withCa c).pend = s.pend := rfl
@[simp] theorem withCa_entropy (s : State) (c : CaUnit) : (s.withCa c).entropy = s.entropy := rfl
@[simp] theorem withCa_drawn (s : State) (c : CaUnit) : (s.withCa c).drawn = s.drawn := rfl
@[simp] theorem withCa_events (s : State) (c : CaUnit) : (s.withCa c).events = s.events := rfl
@[simp] theorem withCa_responses (s : State) (c : CaUnit) : (s.withCa c).responses = s.responses := rfl
@[simp] theorem withCa_x (s : State) (c : CaUnit) (i : Fin 5) : (s.withCa c).x i = s.x i := by fin_cases i <;> rfl

/-! `withLfsr` -/

@[simp] theorem withLfsr_arg0 (s : State) (l : LfsrUnit) : (s.withLfsr l).arg0 = s.arg0 := rfl
@[simp] theorem withLfsr_arg1 (s : State) (l : LfsrUnit) : (s.withLfsr l).arg1 = s.arg1 := rfl
@[simp] theorem withLfsr_arg2 (s : State) (l : LfsrUnit) : (s.withLfsr l).arg2 = s.arg2 := rfl
@[simp] theorem withLfsr_arg3 (s : State) (l : LfsrUnit) : (s.withLfsr l).arg3 = s.arg3 := rfl
@[simp] theorem withLfsr_arg4 (s : State) (l : LfsrUnit) : (s.withLfsr l).arg4 = s.arg4 := rfl
@[simp] theorem withLfsr_status (s : State) (l : LfsrUnit) : (s.withLfsr l).status = s.status := rfl
@[simp] theorem withLfsr_errflags (s : State) (l : LfsrUnit) : (s.withLfsr l).errflags = s.errflags := rfl
@[simp] theorem withLfsr_ca (s : State) (l : LfsrUnit) : (s.withLfsr l).ca = s.ca := rfl
@[simp] theorem withLfsr_lfsr (s : State) (l : LfsrUnit) : (s.withLfsr l).lfsr = l := rfl
@[simp] theorem withLfsr_sel (s : State) (l : LfsrUnit) : (s.withLfsr l).sel = s.sel := rfl
@[simp] theorem withLfsr_pend (s : State) (l : LfsrUnit) : (s.withLfsr l).pend = s.pend := rfl
@[simp] theorem withLfsr_entropy (s : State) (l : LfsrUnit) : (s.withLfsr l).entropy = s.entropy := rfl
@[simp] theorem withLfsr_drawn (s : State) (l : LfsrUnit) : (s.withLfsr l).drawn = s.drawn := rfl
@[simp] theorem withLfsr_events (s : State) (l : LfsrUnit) : (s.withLfsr l).events = s.events := rfl
@[simp] theorem withLfsr_responses (s : State) (l : LfsrUnit) : (s.withLfsr l).responses = s.responses := rfl
@[simp] theorem withLfsr_x (s : State) (l : LfsrUnit) (i : Fin 5) : (s.withLfsr l).x i = s.x i := by fin_cases i <;> rfl

/-! `withSel` -/

@[simp] theorem withSel_arg0 (s : State) (u : SelUnit) : (s.withSel u).arg0 = s.arg0 := rfl
@[simp] theorem withSel_arg1 (s : State) (u : SelUnit) : (s.withSel u).arg1 = s.arg1 := rfl
@[simp] theorem withSel_arg2 (s : State) (u : SelUnit) : (s.withSel u).arg2 = s.arg2 := rfl
@[simp] theorem withSel_arg3 (s : State) (u : SelUnit) : (s.withSel u).arg3 = s.arg3 := rfl
@[simp] theorem withSel_arg4 (s : State) (u : SelUnit) : (s.withSel u).arg4 = s.arg4 := rfl
@[simp] theorem withSel_status (s : State) (u : SelUnit) : (s.withSel u).status = s.status := rfl
@[simp] theorem withSel_errflags (s : State) (u : SelUnit) : (s.withSel u).errflags = s.errflags := rfl
@[simp] theorem withSel_ca (s : State) (u : SelUnit) : (s.withSel u).ca = s.ca := rfl
@[simp] theorem withSel_lfsr (s : State) (u : SelUnit) : (s.withSel u).lfsr = s.lfsr := rfl
@[simp] theorem withSel_sel (s : State) (u : SelUnit) : (s.withSel u).sel = u := rfl
@[simp] theorem withSel_pend (s : State) (u : SelUnit) : (s.withSel u).pend = s.pend := rfl
@[simp] theorem withSel_entropy (s : State) (u : SelUnit) : (s.withSel u).entropy = s.entropy := rfl
@[simp] theorem withSel_drawn (s : State) (u : SelUnit) : (s.withSel u).drawn = s.drawn := rfl
@[simp] theorem withSel_events (s : State) (u : SelUnit) : (s.withSel u).events = s.events := rfl
@[simp] theorem withSel_responses (s : State) (u : SelUnit) : (s.withSel u).responses = s.responses := rfl
@[simp] theorem withSel_x (s : State) (u : SelUnit) (i : Fin 5) : (s.withSel u).x i = s.x i := by fin_cases i <;> rfl

/-! `withPend` -/

@[simp] theorem withPend_arg0 (s : State) (p : PendUnit) : (s.withPend p).arg0 = s.arg0 := rfl
@[simp] theorem withPend_arg1 (s : State) (p : PendUnit) : (s.withPend p).arg1 = s.arg1 := rfl
@[simp] theorem withPend_arg2 (s : State) (p : PendUnit) : (s.withPend p).arg2 = s.arg2 := rfl
@[simp] theorem withPend_arg3 (s : State) (p : PendUnit) : (s.withPend p).arg3 = s.arg3 := rfl
@[simp] theorem withPend_arg4 (s : State) (p : PendUnit) : (s.withPend p).arg4 = s.arg4 := rfl
@[simp] theorem withPend_status (s : State) (p : PendUnit) : (s.withPend p).status = s.status := rfl
@[simp] theorem withPend_errflags (s : State) (p : PendUnit) : (s.withPend p).errflags = s.errflags := rfl
@[simp] theorem withPend_ca (s : State) (p : PendUnit) : (s.withPend p).ca = s.ca := rfl
@[simp] theorem withPend_lfsr (s : State) (p : PendUnit) : (s.withPend p).lfsr = s.lfsr := rfl
@[simp] theorem withPend_sel (s : State) (p : PendUnit) : (s.withPend p).sel = s.sel := rfl
@[simp] theorem withPend_pend (s : State) (p : PendUnit) : (s.withPend p).pend = p := rfl
@[simp] theorem withPend_entropy (s : State) (p : PendUnit) : (s.withPend p).entropy = s.entropy := rfl
@[simp] theorem withPend_drawn (s : State) (p : PendUnit) : (s.withPend p).drawn = s.drawn := rfl
@[simp] theorem withPend_events (s : State) (p : PendUnit) : (s.withPend p).events = s.events := rfl
@[simp] theorem withPend_responses (s : State) (p : PendUnit) : (s.withPend p).responses = s.responses := rfl
@[simp] theorem withPend_x (s : State) (p : PendUnit) (i : Fin 5) : (s.withPend p).x i = s.x i := by fin_cases i <;> rfl

/-! `withEntropy` -/

@[simp] theorem withEntropy_arg0 (s : State) (ws : List Word) (d : Nat) : (s.withEntropy ws d).arg0 = s.arg0 := rfl
@[simp] theorem withEntropy_arg1 (s : State) (ws : List Word) (d : Nat) : (s.withEntropy ws d).arg1 = s.arg1 := rfl
@[simp] theorem withEntropy_arg2 (s : State) (ws : List Word) (d : Nat) : (s.withEntropy ws d).arg2 = s.arg2 := rfl
@[simp] theorem withEntropy_arg3 (s : State) (ws : List Word) (d : Nat) : (s.withEntropy ws d).arg3 = s.arg3 := rfl
@[simp] theorem withEntropy_arg4 (s : State) (ws : List Word) (d : Nat) : (s.withEntropy ws d).arg4 = s.arg4 := rfl
@[simp] theorem withEntropy_status (s : State) (ws : List Word) (d : Nat) : (s.withEntropy ws d).status = s.status := rfl
@[simp] theorem withEntropy_errflags (s : State) (ws : List Word) (d : Nat) : (s.withEntropy ws d).errflags = s.errflags := rfl
@[simp] theorem withEntropy_ca (s : State) (ws : List Word) (d : Nat) : (s.withEntropy ws d).ca = s.ca := rfl
@[simp] theorem withEntropy_lfsr (s : State) (ws : List Word) (d : Nat) : (s.withEntropy ws d).lfsr = s.lfsr := rfl
@[simp] theorem withEntropy_sel (s : State) (ws : List Word) (d : Nat) : (s.withEntropy ws d).sel = s.sel := rfl
@[simp] theorem withEntropy_pend (s : State) (ws : List Word) (d : Nat) : (s.withEntropy ws d).pend = s.pend := rfl
@[simp] theorem withEntropy_entropy (s : State) (ws : List Word) (d : Nat) : (s.withEntropy ws d).entropy = ws := rfl
@[simp] theorem withEntropy_drawn (s : State) (ws : List Word) (d : Nat) : (s.withEntropy ws d).drawn = d := rfl
@[simp] theorem withEntropy_events (s : State) (ws : List Word) (d : Nat) : (s.withEntropy ws d).events = s.events := rfl
@[simp] theorem withEntropy_responses (s : State) (ws : List Word) (d : Nat) : (s.withEntropy ws d).responses = s.responses := rfl
@[simp] theorem withEntropy_x (s : State) (ws : List Word) (d : Nat) (i : Fin 5) : (s.withEntropy ws d).x i = s.x i := by fin_cases i <;> rfl

/-! `respond` -/

@[simp] theorem respond_arg0 (r : Response) (s : State) : (respond r s).arg0 = s.arg0 := rfl
@[simp] theorem respond_arg1 (r : Response) (s : State) : (respond r s).arg1 = s.arg1 := rfl
@[simp] theorem respond_arg2 (r : Response) (s : State) : (respond r s).arg2 = s.arg2 := rfl
@[simp] theorem respond_arg3 (r : Response) (s : State) : (respond r s).arg3 = s.arg3 := rfl
@[simp] theorem respond_arg4 (r : Response) (s : State) : (respond r s).arg4 = s.arg4 := rfl
@[simp] theorem respond_status (r : Response) (s : State) : (respond r s).status = s.status := rfl
@[simp] theorem respond_errflags (r : Response) (s : State) : (respond r s).errflags = s.errflags := rfl
@[simp] theorem respond_ca (r : Response) (s : State) : (respond r s).ca = s.ca := rfl
@[simp] theorem respond_lfsr (r : Response) (s : State) : (respond r s).lfsr = s.lfsr := rfl
@[simp] theorem respond_sel (r : Response) (s : State) : (respond r s).sel = s.sel := rfl
@[simp] theorem respond_pend (r : Response) (s : State) : (respond r s).pend = s.pend := rfl
@[simp] theorem respond_entropy (r : Response) (s : State) : (respond r s).entropy = s.entropy := rfl
@[simp] theorem respond_drawn (r : Response) (s : State) : (respond r s).drawn = s.drawn := rfl
@[simp] theorem respond_events (r : Response) (s : State) : (respond r s).events = s.events := rfl
@[simp] theorem respond_responses (r : Response) (s : State) : (respond r s).responses = s.responses ++ [r] := rfl
@[simp] theorem respond_x (r : Response) (s : State) (i : Fin 5) : (respond r s).x i = s.x i := by fin_cases i <;> rfl

/-! `pushEvent` -/

@[simp] theorem pushEvent_arg0 (e : Event) (s : State) : (pushEvent e s).arg0 = s.arg0 := rfl
@[simp] theorem pushEvent_arg1 (e : Event) (s : State) : (pushEvent e s).arg1 = s.arg1 := rfl
@[simp] theorem pushEvent_arg2 (e : Event) (s : State) : (pushEvent e s).arg2 = s.arg2 := rfl
@[simp] theorem pushEvent_arg3 (e : Event) (s : State) : (pushEvent e s).arg3 = s.arg3 := rfl
@[simp] theorem pushEvent_arg4 (e : Event) (s : State) : (pushEvent e s).arg4 = s.arg4 := rfl
@[simp] theorem pushEvent_status (e : Event) (s : State) : (pushEvent e s).status = s.status := rfl
@[simp] theorem pushEvent_errflags (e : Event) (s : State) : (pushEvent e s).errflags = s.errflags := rfl
@[simp] theorem pushEvent_ca (e : Event) (s : State) : (pushEvent e s).ca = s.ca := rfl
@[simp] theorem pushEvent_lfsr (e : Event) (s : State) : (pushEvent e s).lfsr = s.lfsr := rfl
@[simp] theorem pushEvent_sel (e : Event) (s : State) : (pushEvent e s).sel = s.sel := rfl
@[simp] theorem pushEvent_pend (e : Event) (s : State) : (pushEvent e s).pend = s.pend := rfl
@[simp] theorem pushEvent_entropy (e : Event) (s : State) : (pushEvent e s).entropy = s.entropy := rfl
@[simp] theorem pushEvent_drawn (e : Event) (s : State) : (pushEvent e s).drawn = s.drawn := rfl
@[simp] theorem pushEvent_events (e : Event) (s : State) : (pushEvent e s).events = e :: s.events := rfl
@[simp] theorem pushEvent_responses (e : Event) (s : State) : (pushEvent e s).responses = s.responses := rfl
@[simp] theorem pushEvent_x (e : Event) (s : State) (i : Fin 5) : (pushEvent e s).x i = s.x i := by fin_cases i <;> rfl

/-! `resetBlock` -/

@[simp] theorem resetBlock_arg0 (s : State) : (resetBlock s).arg0 = State.reset.arg0 := rfl
@[simp] theorem resetBlock_arg1 (s : State) : (resetBlock s).arg1 = State.reset.arg1 := rfl
@[simp] theorem resetBlock_arg2 (s : State) : (resetBlock s).arg2 = State.reset.arg2 := rfl
@[simp] theorem resetBlock_arg3 (s : State) : (resetBlock s).arg3 = State.reset.arg3 := rfl
@[simp] theorem resetBlock_arg4 (s : State) : (resetBlock s).arg4 = State.reset.arg4 := rfl
@[simp] theorem resetBlock_status (s : State) : (resetBlock s).status = State.reset.status := rfl
@[simp] theorem resetBlock_errflags (s : State) : (resetBlock s).errflags = State.reset.errflags := rfl
@[simp] theorem resetBlock_ca (s : State) : (resetBlock s).ca = State.reset.ca := rfl
@[simp] theorem resetBlock_lfsr (s : State) : (resetBlock s).lfsr = State.reset.lfsr := rfl
@[simp] theorem resetBlock_sel (s : State) : (resetBlock s).sel = State.reset.sel := rfl
@[simp] theorem resetBlock_pend (s : State) : (resetBlock s).pend = State.reset.pend := rfl
@[simp] theorem resetBlock_entropy (s : State) : (resetBlock s).entropy = s.entropy := rfl
@[simp] theorem resetBlock_drawn (s : State) : (resetBlock s).drawn = s.drawn := rfl
@[simp] theorem resetBlock_events (s : State) : (resetBlock s).events = s.events := rfl
@[simp] theorem resetBlock_responses (s : State) : (resetBlock s).responses = s.responses := rfl

/-! The argument registers. -/

@[simp] theorem x_0 (s : State) : s.x 0 = s.arg0 := rfl
@[simp] theorem x_1 (s : State) : s.x 1 = s.arg1 := rfl
@[simp] theorem x_2 (s : State) : s.x 2 = s.arg2 := rfl
@[simp] theorem x_3 (s : State) : s.x 3 = s.arg3 := rfl
@[simp] theorem x_4 (s : State) : s.x 4 = s.arg4 := rfl

/-! The literals a finished or failed command writes (60_exceptions.md R301, 10_state.md R33, R34). -/

theorem statusWord_zero : statusWord 0 = 0 := rfl

theorem finish_eq (s : State) : finish s = { s with status := 0 } := rfl

theorem raise_configError (s : State) :
    raise .configError s = { s with status := 1, errflags := s.errflags ||| 2 } := rfl

theorem raise_invalidTap (s : State) :
    raise .invalidTap s = { s with status := 2, errflags := s.errflags ||| 4 } := rfl

theorem raise_selRange (s : State) :
    raise .selRange s = { s with status := 3, errflags := s.errflags ||| 8 } := rfl

theorem raise_numDegeneracy (s : State) :
    raise .numDegeneracy s = { s with status := 4, errflags := s.errflags ||| 0x10 } := rfl

theorem raise_numOverflow (s : State) :
    raise .numOverflow s = { s with status := 5, errflags := s.errflags ||| 0x20 } := rfl

theorem raise_illegalCommand (s : State) :
    raise .illegalCommand s = { s with status := 6, errflags := s.errflags ||| 0x40 } := rfl

end Sys2Proof.Machine
end

