-- ==== Sys2Proof/Laws/Ops.lean ====
section
/-! SUPPORT. What each shared operation can do, said once: the value helpers bit by bit, the entropy draws, how a command
ends, the bus port and the step. Proofs cite these instead of unfolding the operations. -/

namespace Sys2Proof.Machine

/-! ### Values -/

/-- `v mod 2^n` bit by bit. -/
theorem lowBits_getLsbD (v : Word) (n j : Nat) : (lowBits v n).getLsbD j = (decide (j < n) && v.getLsbD j) := by
  simp only [lowBits, BitVec.getLsbD_ofNat, Nat.testBit_mod_two_pow]
  by_cases hj : j < 32
  · simp [hj, BitVec.getLsbD]
  · simp [hj, BitVec.getLsbD_of_ge v j (by omega)]

theorem lowBits_toNat (v : Word) (n : Nat) : (lowBits v n).toNat = v.toNat % 2 ^ n := by
  simp only [lowBits, BitVec.toNat_ofNat]
  exact Nat.mod_eq_of_lt (lt_of_le_of_lt (Nat.mod_le _ _) v.isLt)

theorem lowBits_lt (v : Word) (n : Nat) : (lowBits v n).toNat < 2 ^ n := by
  rw [lowBits_toNat]; exact Nat.mod_lt _ (by positivity)

theorem lowBits_of_lt (v : Word) (n : Nat) (h : v.toNat < 2 ^ n) : lowBits v n = v := by
  apply BitVec.eq_of_toNat_eq; rw [lowBits_toNat, Nat.mod_eq_of_lt h]

theorem lowBits_32 (v : Word) : lowBits v 32 = v := lowBits_of_lt v 32 v.isLt

/-- The fields of CA_CFG are the ones its word was made of. -/
theorem caCfgWord_toNat (len rule : Nat) : (caCfgWord len rule).toNat = rule % 256 * 256 + len % 64 := by
  simp only [caCfgWord, BitVec.toNat_ofNat]; omega

theorem lfsrCfgWord_toNat (n : Nat) : (lfsrCfgWord n).toNat = n % 64 := by
  simp only [lfsrCfgWord, BitVec.toNat_ofNat]; omega

theorem selCfgWord_toNat (n k : Nat) : (selCfgWord n k).toNat = n % 64 * 256 + k % 64 := by
  simp only [selCfgWord, BitVec.toNat_ofNat]; omega

@[simp] theorem caCfgWord_len (st : Word) (len rule : Nat) :
    CaUnit.len { state := st, cfg := caCfgWord len rule } = len % 64 := by
  simp only [CaUnit.len, bits, caCfgWord_toNat]; omega

@[simp] theorem caCfgWord_rule (st : Word) (len rule : Nat) :
    CaUnit.rule { state := st, cfg := caCfgWord len rule } = rule % 256 := by
  simp only [CaUnit.rule, bits, caCfgWord_toNat]; omega

theorem CaUnit.len_lt (c : CaUnit) : c.len < 64 := by simp only [CaUnit.len, bits]; omega

theorem CaUnit.rule_lt (c : CaUnit) : c.rule < 256 := by simp only [CaUnit.rule, bits]; omega

theorem LfsrUnit.nbits_lt (l : LfsrUnit) : l.nbits < 64 := by simp only [LfsrUnit.nbits, bits]; omega

/-- LEN and RULE are read from CA_CFG alone, and NBITS from LFSR_CFG alone. -/
theorem CaUnit.len_congr (c : CaUnit) (st : Word) : CaUnit.len { c with state := st } = c.len := rfl

theorem CaUnit.rule_congr (c : CaUnit) (st : Word) : CaUnit.rule { c with state := st } = c.rule := rfl

/-- A register value within the positive Q8.24 range is its unsigned reading. -/
theorem wrap32_sext32 (v : Word) : wrap32 (sext32 v) = v := by simp [wrap32, sext32]

/-! ### Entropy -/

theorem takeWord_of_cons (s : State) (w : Word) (ws : List Word) (h : s.entropy = w :: ws) :
    takeWord s = (w, s.withEntropy ws s.drawn) := by simp [takeWord, h]

theorem takeWord_of_nil (s : State) (h : s.entropy = []) :
    takeWord s = (Config.entropyWord s.drawn, s.withEntropy [] (s.drawn + 1)) := by simp [takeWord, h]

/-- Taking a word changes only the entropy fields. -/
theorem takeWord_eq_withEntropy (s : State) :
    ∃ (w : Word) (ws : List Word) (d : Nat), takeWord s = (w, s.withEntropy ws d) := by
  unfold takeWord; split <;> exact ⟨_, _, _, rfl⟩

/-- Drawing bits changes only the entropy fields, and the value is below 2^n. -/
theorem drawBits_eq_withEntropy (n : Nat) (s : State) :
    ∃ (v : Word) (ws : List Word) (d : Nat), drawBits n s = (v, s.withEntropy ws d) ∧ v.toNat < 2 ^ n := by
  obtain ⟨w, ws, d, h⟩ := takeWord_eq_withEntropy s
  exact ⟨lowBits w n, ws, d, by simp [drawBits, h], lowBits_lt w n⟩

/-- A found word is nonzero in its low n bits, and it lies in the list. -/
theorem firstNonzero_spec (n : Nat) (l : List Word) (v : Word) (ws : List Word) (h : firstNonzero n l = some (v, ws)) :
    v ≠ 0 ∧ ∃ (skipped : List Word) (w : Word), l = skipped ++ w :: ws ∧ v = lowBits w n
      ∧ ∀ x ∈ skipped, lowBits x n = 0 := by
  induction l with
  | nil => simp [firstNonzero] at h
  | cons a l ih =>
    simp only [firstNonzero] at h
    split at h
    · obtain ⟨hv, sk, w, rfl, hw, hs⟩ := ih h
      exact ⟨hv, a :: sk, w, rfl, hw, by simp only [List.mem_cons, forall_eq_or_imp]; exact ⟨‹_›, hs⟩⟩
    · simp only [Option.some.injEq, Prod.mk.injEq] at h
      obtain ⟨rfl, rfl⟩ := h
      exact ⟨‹_›, [], a, rfl, rfl, by simp⟩

theorem freeNonzero_toNat (n d : Nat) (h : n ≤ 32) (h1 : 1 ≤ n) :
    1 ≤ (freeNonzero n d).toNat ∧ (freeNonzero n d).toNat ≤ 2 ^ n - 1 := by
  have h2 : 2 ^ n ≤ 2 ^ 32 := Nat.pow_le_pow_right (by norm_num) h
  have h3 : 2 ^ 1 ≤ 2 ^ n := Nat.pow_le_pow_right (by norm_num) h1
  have h4 : (Config.entropyWord d).toNat % (2 ^ n - 1) < 2 ^ n - 1 := Nat.mod_lt _ (by omega)
  simp only [freeNonzero, BitVec.toNat_ofNat]
  rw [Nat.mod_eq_of_lt (by omega)]; omega

/-- `draw_range(1, 2^n - 1)` changes only the entropy fields, and the value is in the range. -/
theorem drawNonzero_eq_withEntropy (n : Nat) (s : State) (h1 : 1 ≤ n) (h : n ≤ 32) :
    ∃ (v : Word) (ws : List Word) (d : Nat), drawNonzero n s = (v, s.withEntropy ws d)
      ∧ 1 ≤ v.toNat ∧ v.toNat < 2 ^ n := by
  have hp : 0 < 2 ^ n := by positivity
  unfold drawNonzero
  split
  · rename_i v ws hf
    obtain ⟨hv, sk, w, -, rfl, -⟩ := firstNonzero_spec n _ _ _ hf
    refine ⟨_, _, _, rfl, ?_, lowBits_lt w n⟩
    by_contra hc
    exact hv (BitVec.eq_of_toNat_eq (by simp; omega))
  · exact ⟨_, _, _, rfl, (freeNonzero_toNat n _ h h1).1, by have := (freeNonzero_toNat n s.drawn h h1).2; omega⟩

/-- Whatever the width, `draw_range` changes only the entropy fields. -/
theorem drawNonzero_withEntropy (n : Nat) (s : State) :
    ∃ (v : Word) (ws : List Word) (d : Nat), drawNonzero n s = (v, s.withEntropy ws d) := by
  unfold drawNonzero; split <;> exact ⟨_, _, _, rfl⟩

/-- Dropping words changes only the entropy fields. -/
theorem takeWords_eq_withEntropy (count : Nat) (s : State) :
    ∃ (ws : List Word) (d : Nat), takeWords count s = s.withEntropy ws d := by
  induction count generalizing s with
  | zero => exact ⟨s.entropy, s.drawn, rfl⟩
  | succ count ih =>
    obtain ⟨w, ws, d, h⟩ := takeWord_eq_withEntropy s
    obtain ⟨ws', d', h'⟩ := ih (s.withEntropy ws d)
    exact ⟨ws', d', by simp only [takeWords, h]; rw [h']; rfl⟩

/-! ### The bus port -/

theorem execute_ok (w : Word) (i : Instr) (s : State) (h : decode w = .ok i) : execute w s = exec i s := by
  simp [execute, h]

theorem execute_error (w : Word) (e : DecodeError) (s : State) (h : decode w = .error e) :
    execute w s = .next (raise .illegalCommand s) := by simp [execute, h]

/-- An answer that became a response was the next state without it. -/
theorem respondAfter_eq_next (r : Response) (o : Answer) (t : State) :
    respondAfter r o = .next t ↔ ∃ u, o = .next u ∧ t = respond r u := by
  cases o <;> simp [respondAfter, eq_comm]

theorem writeWindow_cmd (w : Word) (s : State) : writeWindow 0x00 w s = execute w s := rfl

@[simp] theorem cmdWrite_admitted (w : Word) : (cmdWrite w).admitted = true := rfl

theorem serve_cmdWrite (w : Word) (s : State) :
    serve (cmdWrite w) s = respondAfter .writeOk (execute w s) := rfl

theorem serve_refused (a : Access) (s : State) (h : a.admitted = false) :
    serve a s = .next (respond (if a.write then .writeError else .readError 0) s) := by simp [serve, h]

theorem serve_read (a : Access) (s : State) (h : a.admitted = true) (hw : a.write = false) :
    serve a s = .next (respond (.readOk (readWindow s a.off)) s) := by simp [serve, h, hw]

theorem serve_write (a : Access) (s : State) (h : a.admitted = true) (hw : a.write = true) :
    serve a s = respondAfter .writeOk (writeWindow a.off a.data s) := by simp [serve, h, hw]

/-! ### The step -/

theorem step_idle (s : State) (h : s.events = []) : step s = .next s := by
  simp [step, stepBlock, fetchEvent, h]

/-- With an event pending, the step is what the block does with it on the state that has consumed it. -/
theorem step_event (s : State) (e : Event) (es : List Event) (h : s.events = e :: es) :
    step s = handle e { s with events := es } := by
  simp [step, stepBlock, fetchEvent, h]

end Sys2Proof.Machine
end

