-- ==== Sys2Proof/Laws/Ca.lean ====
section
/-! SUPPORT. CA_NEXT and the two rotations of R147 bit by bit. -/

namespace Sys2Proof.Machine

/-- The partial sum of R147: bit j is the table entry of cell j's code, and nothing stands above. -/
theorem caNextBelow_testBit (v : Word) (L r : Nat) (n j : Nat) :
    (caNextBelow v L r n).testBit j = (decide (j < n) && r.testBit (caCode v L j)) ∧ caNextBelow v L r n < 2^n := by
  induction n with
  | zero => simp [caNextBelow]
  | succ n ih =>
    obtain ⟨ih, hlt⟩ := ih
    simp only [caNextBelow]
    set b := r.testBit (caCode v L n)
    have hb : b.toNat ≤ 1 := Bool.toNat_le b
    constructor
    · rw [Nat.add_comm, Nat.mul_comm, Nat.testBit_two_pow_mul_add _ hlt, ih]
      split
      · rename_i h; simp [h, Nat.lt_succ_of_lt h]
      · rename_i h
        rcases Nat.lt_or_ge n j with h1 | h1
        · have : ¬ j < n + 1 := by omega
          simp only [this, decide_false, Bool.false_and]
          apply Nat.testBit_lt_two_pow; calc b.toNat ≤ 1 := hb
             _ < 2^(j-n) := Nat.one_lt_two_pow (by omega)
        · have : j = n := by omega
          subst this; cases h : b <;> simp [b] at h <;> simp [h]
    · rw [pow_succ]; nlinarith [Nat.mul_le_mul_right (2^n) hb]

/-- Bit j of CA_NEXT is the table entry of the code of the neighbourhood of bit j. -/
theorem caNext_getLsbD (v : Word) (L r j : Nat) (hL : L ≤ 32) :
    (caNext v L r).getLsbD j = (decide (j < L) && r.testBit (caCode v L j)) := by
  simp only [caNext, BitVec.getLsbD_ofNat, (caNextBelow_testBit v L r L j).1]
  by_cases h : j < 32
  · simp [h]
  · simp [h]; omega

/-- `rotl_L` takes bit j from bit j - 1 modulo L. -/
theorem ringUp_getLsbD (v : Word) (L j : Nat) (h3 : 3 ≤ L) (hL : L ≤ 32) (hv : v.toNat < 2^L) :
    (ringUp v L).getLsbD j = (decide (j < L) && v.getLsbD ((j + L - 1) % L)) := by
  simp only [ringUp, lowBits_getLsbD, BitVec.getLsbD_or, BitVec.getLsbD_shiftLeft, BitVec.getLsbD_ushiftRight]
  by_cases h : j < L
  · have h32 : j < 32 := by omega
    have hb : ∀ k, L ≤ k → v.getLsbD k = false := fun k hk => by
      rw [BitVec.getLsbD]; exact Nat.testBit_lt_two_pow (lt_of_lt_of_le hv (Nat.pow_le_pow_right (by norm_num) hk))
    rcases Nat.eq_zero_or_pos j with rfl | hp
    · simp [Nat.mod_eq_of_lt (by omega : L - 1 < L)]
    · rw [show j + L - 1 = (j - 1) + L by omega, Nat.add_mod_right, Nat.mod_eq_of_lt (by omega : j - 1 < L)]
      have h1 : ¬ j < 1 := by omega
      simp [h, h32, h1, hb (L - 1 + j) (by omega)]
  · simp [h]

/-- `rotr_L` takes bit j from bit j + 1 modulo L. -/
theorem ringDown_getLsbD (v : Word) (L j : Nat) (h3 : 3 ≤ L) (hL : L ≤ 32) (hv : v.toNat < 2^L) :
    (ringDown v L).getLsbD j = (decide (j < L) && v.getLsbD ((j + 1) % L)) := by
  have hb : ∀ k, L ≤ k → v.getLsbD k = false := fun k hk => by
      rw [BitVec.getLsbD]; exact Nat.testBit_lt_two_pow (lt_of_lt_of_le hv (Nat.pow_le_pow_right (by norm_num) hk))
  have one : ∀ k, (1#32).getLsbD k = decide (k = 0) := by intro k; simp
  simp only [ringDown, BitVec.getLsbD_or, BitVec.getLsbD_shiftLeft, BitVec.getLsbD_ushiftRight, BitVec.getLsbD_and]
  rcases Nat.lt_or_ge j (L - 1) with h | h
  · have : (j + 1) % L = 1 + j := by rw [Nat.mod_eq_of_lt (by omega)]; omega
    simp [h, this, show j < L by omega]
  · rcases Nat.lt_or_ge j L with h' | h'
    · have : j = L - 1 := by omega
      subst this
      simp [show L - 1 + 1 = L by omega, h', hb (1 + (L-1)) (by omega), show L - 1 < 32 by omega]
    · simp only [hb (1+j) (by omega)]
      have : ¬ (j - (L - 1) = 0) := by omega
      simp [this]; omega

/-- A neighbourhood code is below 8. -/
theorem caCode_lt (v : Word) (L j : Nat) : caCode v L j < 8 := by
  unfold caCode
  have := Bool.toNat_le (v.getLsbD ((j+1)%L)); have := Bool.toNat_le (v.getLsbD j); have := Bool.toNat_le (v.getLsbD ((j+L-1)%L)); omega

end Sys2Proof.Machine
end

