-- ==== Sys2Proof/Laws/Codec.lean ====
section
/-! SUPPORT. The opcode map R114 said once: an opcode and its code name each other, and the fixed bits of a word decide
its opcode. Proofs about decoding cite these instead of splitting the 21 rows again. -/

namespace Sys2Proof

/-- OPC is the top byte of the word. -/
theorem bits_opc (w : Word) : bits w 31 24 = w.toNat / 2 ^ 24 := by
  unfold bits; have := w.isLt; omega

/-- A field of b bits is below 2^b. -/
theorem bits_lt (w : Word) (hi lo : Nat) : bits w hi lo < 2 ^ (hi - lo + 1) := Nat.mod_lt _ (by positivity)

theorem ofCode?_eq_some (n : Nat) (o : Opcode) : Opcode.ofCode? n = some o ↔ o.code = n := by
  constructor
  · intro h; unfold Opcode.ofCode? at h; split at h <;> simp_all <;> subst h <;> rfl
  · rintro rfl; cases o <;> rfl

theorem matchWord_opc (o : Opcode) : o.matchWord.toNat / 2 ^ 24 = o.code := by cases o <;> decide

theorem mask_opc (f : Format) : f.mask.toNat / 2 ^ 24 = 255 := by cases f <;> decide

/-- A mask that keeps the whole top byte keeps OPC. -/
theorem and_opc (w m : Word) (h : m.toNat / 2 ^ 24 = 255) : (w &&& m).toNat / 2 ^ 24 = w.toNat / 2 ^ 24 := by
  simp only [BitVec.toNat_and]
  rw [Nat.and_div_two_pow, h, show (255 : Nat) = 2 ^ 8 - 1 from rfl, Nat.and_two_pow_sub_one_eq_mod]
  have := w.isLt; omega

/-- A word that matches a row has the row's opcode. -/
theorem ofCode?_of_match (w : Word) (o : Opcode) (h : w &&& o.format.mask = o.matchWord) :
    Opcode.ofCode? (bits w 31 24) = some o := by
  rw [ofCode?_eq_some, bits_opc, ← matchWord_opc o, ← h, and_opc _ _ (mask_opc _)]

/-- The command read from a word has the opcode it was read for. -/
@[simp] theorem instr_opcode (o : Opcode) (w : Word) : (o.instr w).opcode = o := by cases o <;> rfl

end Sys2Proof
end

