-- ==== Sys2Proof/Laws/Exec.lean ====
section
/-! SUPPORT. What any command can do, said once (`exec_cases`), and the register map's offsets. Statements about every
command, every access or every step cite these instead of unfolding the 21 meanings. -/

namespace Sys2Proof.Machine

theorem drawBits_withEntropy (n : Nat) (s : State) :
    ∃ (v : Word) (ws : List Word) (d : Nat), drawBits n s = (v, s.withEntropy ws d) := by
  obtain ⟨v, ws, d, h, -⟩ := drawBits_eq_withEntropy n s; exact ⟨v, ws, d, h⟩

/-- CHECK_RULE fails only with the two codes of R170. -/
theorem checkRule_eq_some (rule n : Nat) (e : ErrorCode) (h : checkRule rule n = some e) :
    e = .configError ∨ e = .invalidTap := by
  unfold checkRule at h; split at h
  · left; cases h; rfl
  · split at h
    · right; cases h; rfl
    · cases h

/-- Every command raises an error of its own list, or ends OK having written at most its own unit, and entropy only where it
draws. -/
theorem exec_cases (i : Instr) (s : State) :
    (∃ e : ErrorCode, exec i s = .next (raise e s) ∧ e.code ∈ possibleResults i) ∨
    (∃ (ca : CaUnit) (lfsr : LfsrUnit) (sel : SelUnit) (pend : PendUnit) (ws : List Word) (d : Nat),
      exec i s = .next { s with
        status := 0, ca := ca, lfsr := lfsr, sel := sel, pend := pend, entropy := ws, drawn := d }
      ∧ (Owner.of i ≠ .ca → ca = s.ca) ∧ (Owner.of i ≠ .lfsr → lfsr = s.lfsr)
      ∧ (Owner.of i ≠ .sel → sel = s.sel) ∧ (Owner.of i ≠ .pend → pend = s.pend)
      ∧ (drawsEntropy i = false → ws = s.entropy ∧ d = s.drawn)) := by
  cases i
  case nop => right; exact ⟨_, _, _, _, _, _, rfl, by simp [Owner.of, drawsEntropy]⟩
  case caInit l r =>
    simp only [exec, execCaInit]; split
    · left; exact ⟨_, rfl, by simp [possibleResults, ErrorCode.code]⟩
    · right; exact ⟨_, _, _, _, _, _, rfl, by simp [Owner.of, drawsEntropy]⟩
  case caSetRule r => right; exact ⟨_, _, _, _, _, _, rfl, by simp [Owner.of, drawsEntropy]⟩
  case caSetState => right; exact ⟨_, _, _, _, _, _, rfl, by simp [Owner.of, drawsEntropy]⟩
  case caRandomize =>
    right; obtain ⟨v, ws, d, h⟩ := drawBits_withEntropy s.ca.len s
    simp only [exec, execCaRandomize, h]; exact ⟨_, _, _, _, _, _, rfl, by simp [Owner.of, drawsEntropy]⟩
  case caResetState => right; exact ⟨_, _, _, _, _, _, rfl, by simp [Owner.of, drawsEntropy]⟩
  case caAdvance => right; exact ⟨_, _, _, _, _, _, rfl, by simp [Owner.of, drawsEntropy]⟩
  case lfsrInit n =>
    simp only [exec, execLfsrInit]; split
    · left; exact ⟨_, rfl, by simp [possibleResults, ErrorCode.code]⟩
    · split
      · left; exact ⟨_, rfl, by simp [possibleResults, ErrorCode.code]⟩
      · split
        · rename_i e he; left
          rcases checkRule_eq_some _ _ _ he with rfl | rfl <;> exact ⟨_, rfl, by simp [possibleResults, ErrorCode.code]⟩
        · right; exact ⟨_, _, _, _, _, _, rfl, by simp [Owner.of, drawsEntropy]⟩
  case lfsrSetRule =>
    simp only [exec, execLfsrSetRule]; split
    · rename_i e he; left
      rcases checkRule_eq_some _ _ _ he with rfl | rfl <;> exact ⟨_, rfl, by simp [possibleResults, ErrorCode.code]⟩
    · right; exact ⟨_, _, _, _, _, _, rfl, by simp [Owner.of, drawsEntropy]⟩
  case lfsrSetState => right; exact ⟨_, _, _, _, _, _, rfl, by simp [Owner.of, drawsEntropy]⟩
  case lfsrRandomize =>
    right; obtain ⟨v, ws, d, h⟩ := drawNonzero_withEntropy s.lfsr.nbits s
    simp only [exec, execLfsrRandomize, h]; exact ⟨_, _, _, _, _, _, rfl, by simp [Owner.of, drawsEntropy]⟩
  case lfsrResetState => right; exact ⟨_, _, _, _, _, _, rfl, by simp [Owner.of, drawsEntropy]⟩
  case lfsrAdvance => right; exact ⟨_, _, _, _, _, _, rfl, by simp [Owner.of, drawsEntropy]⟩
  case selChoose n k =>
    simp only [exec, execSelChoose]; split
    · left; exact ⟨_, rfl, by simp [possibleResults, ErrorCode.code]⟩
    · right; exact ⟨_, _, _, _, _, _, rfl, by simp [Owner.of, drawsEntropy]⟩
  case selCombination n k =>
    simp only [exec, execSelCombination]; split
    · left; exact ⟨_, rfl, by simp [possibleResults, ErrorCode.code]⟩
    · split
      · left; exact ⟨_, rfl, by simp [possibleResults, ErrorCode.code]⟩
      · right; exact ⟨_, _, _, _, _, _, rfl, by simp [Owner.of, drawsEntropy]⟩
  case pendInit =>
    simp only [exec, execPendInit]; split
    · left; exact ⟨_, rfl, by simp [possibleResults, ErrorCode.code]⟩
    · right; obtain ⟨v, ws, d, h⟩ := drawBits_withEntropy 32 s
      obtain ⟨v', ws', d', h'⟩ := drawBits_withEntropy 32 (s.withEntropy ws d)
      simp only [h, h']; exact ⟨_, _, _, _, _, _, rfl, by simp [Owner.of, drawsEntropy]⟩
  case pendSetState => right; exact ⟨_, _, _, _, _, _, rfl, by simp [Owner.of, drawsEntropy]⟩
  case pendSetDt =>
    simp only [exec, execPendSetDt]; split
    · left; exact ⟨_, rfl, by simp [possibleResults, ErrorCode.code]⟩
    · right; exact ⟨_, _, _, _, _, _, rfl, by simp [Owner.of, drawsEntropy]⟩
  case pendRandomize =>
    right; obtain ⟨v, ws, d, h⟩ := drawBits_withEntropy 32 s
    obtain ⟨v', ws', d', h'⟩ := drawBits_withEntropy 32 (s.withEntropy ws d)
    simp only [exec, execPendRandomize, h, h']; exact ⟨_, _, _, _, _, _, rfl, by simp [Owner.of, drawsEntropy]⟩
  case pendAdvance =>
    simp only [exec, execPendAdvance]; split
    · left; exact ⟨_, rfl, by simp [possibleResults, ErrorCode.code]⟩
    · split
      · left; exact ⟨_, rfl, by simp [possibleResults, ErrorCode.code]⟩
      · right; exact ⟨_, _, _, _, _, _, rfl, by simp [Owner.of, drawsEntropy]⟩
  case pendDerivs =>
    simp only [exec, execPendDerivs]; split
    · left; exact ⟨_, rfl, by simp [possibleResults, ErrorCode.code]⟩
    · split
      · left; exact ⟨_, rfl, by simp [possibleResults, ErrorCode.code]⟩
      · right; exact ⟨_, _, _, _, _, _, rfl, by simp [Owner.of, drawsEntropy]⟩

/-- Every command ends (R300). -/
theorem exec_eq_next (i : Instr) (s : State) : ∃ t, exec i s = .next t := by
  rcases exec_cases i s with ⟨e, he, -⟩ | ⟨_, _, _, _, _, _, he, -⟩ <;> exact ⟨_, he⟩

/-- No command touches the pending events or the responses. -/
theorem exec_events (i : Instr) (s t : State) (h : exec i s = .next t) :
    t.events = s.events ∧ t.responses = s.responses := by
  rcases exec_cases i s with ⟨e, he, -⟩ | ⟨_, _, _, _, _, _, he, -⟩ <;> (rw [he] at h; cases h; exact ⟨rfl, rfl⟩)

/-- Only LFSR_SET_STATE and LFSR_INIT write LFSR_SAVED (R43). -/
theorem exec_saved (i : Instr) (s t : State) (h : exec i s = .next t) (hset : i ≠ .lfsrSetState)
    (hinit : ∀ n, i ≠ .lfsrInit n) : t.lfsr.saved = s.lfsr.saved := by
  rcases exec_cases i s with ⟨e, he, -⟩ | ⟨ca, l, sel, p, ws, d, he, -, hl, -⟩
  · rw [he] at h; cases h; rfl
  · by_cases ho : Owner.of i = .lfsr
    · cases i <;> simp [Owner.of] at ho
      case lfsrInit n => exact absurd rfl (hinit n)
      case lfsrSetState => exact absurd rfl hset
      case lfsrSetRule => simp only [exec, execLfsrSetRule] at h; split at h <;> cases h <;> rfl
      case lfsrRandomize => simp only [exec, execLfsrRandomize] at h; cases h; rfl
      case lfsrResetState => cases h; rfl
      case lfsrAdvance => cases h; rfl
    · rw [he] at h; cases h; exact congrArg _ (hl ho)

/-! ### The register map (R56) -/

theorem ofOffset?_offset (r : Reg) : Reg.ofOffset? r.offset = some r := by cases r <;> rfl

theorem offset_lt (r : Reg) : r.offset < 256 := by cases r <;> decide

theorem offset_mod_four (r : Reg) : r.offset % 4 = 0 := by cases r <;> decide

theorem offset_toNat (n : Nat) (h : n < 256) : (BitVec.ofNat 8 n).toNat = n := by simp; omega

/-- An admitted write to a register that R56 marks read-only is ignored. -/
theorem writeReg_readOnly (r : Reg) (v : Word) (s : State) (h : r.attr = .readOnly) : writeReg r v s = .next s := by
  cases r <;> first | rfl | cases h

/-- After reset every register reads its reset value, whatever the state before. -/
theorem resetBlock_readReg (s : State) (r : Reg) : readReg (resetBlock s) r = r.resetValue := by cases r <;> rfl

end Sys2Proof.Machine
end

