-- ==== Sys2Proof/Laws/PerInstr.lean ====
section
/-! SUPPORT. A family of lemmas per instruction: the encoder's word of a well-formed command has the opcode and the zero
reserved bits that the opcode map R114 gives the command's row. -/

namespace Sys2Proof.Laws.EncodingRow

/-- The word of a well-formed command, under the mask of its format, is the opcode's match word (R114). -/
def Statement (i : Instr) : Prop :=
  WellFormed i → encode i &&& i.opcode.format.mask = i.opcode.matchWord

/-- A field that fits b bits has no bit at b or above. -/
theorem field_high_bit (b f j : Nat) (h : f < 2 ^ b) (hj : b ≤ j) : f.testBit j = false :=
  Nat.testBit_lt_two_pow (lt_of_lt_of_le h (Nat.pow_le_pow_right (by norm_num) hj))

/-- A word whose field bits lie outside the mask is, under the mask, its fixed bits. -/
theorem masked_word (fixed fields mask : Word) (hf : fixed &&& mask = fixed) (h : fields &&& mask = 0) :
    (fixed ||| fields) &&& mask = fixed := by
  rw [BitVec.and_comm, BitVec.and_or_distrib_left, BitVec.and_comm, hf, BitVec.and_comm, h]; exact BitVec.or_zero

/-- A field of at most 6 bits at bit 0 is outside any mask whose low 6 bits are 0. -/
theorem low_field_masked (f : Nat) (h : f < 64) (mask : Word) (hm : mask.toNat % 64 = 0) :
    BitVec.ofNat 32 f &&& mask = 0 := by
  apply BitVec.eq_of_getLsbD_eq
  intro j hj
  rcases Nat.lt_or_ge j 6 with h6 | h6
  · have : mask.toNat.testBit j = false := by
      have := Nat.testBit_mod_two_pow mask.toNat 6 j
      simp [hm, h6] at this; exact this
    simp [BitVec.getLsbD, this]
  · simp [BitVec.getLsbD_ofNat, field_high_bit 6 f j h h6]

/-- A field of at most b bits at bit 8 is outside any mask whose bits 8 to b + 7 are 0. -/
theorem high_field_masked (b f : Nat) (h : f < 2 ^ b) (mask : Word) (hm : mask.toNat / 256 % 2 ^ b = 0) :
    BitVec.ofNat 32 f <<< 8 &&& mask = 0 := by
  apply BitVec.eq_of_getLsbD_eq
  intro j hj
  rcases Nat.lt_or_ge j 8 with h8 | h8
  · simp [h8]
  · rcases Nat.lt_or_ge (j - 8) b with hb | hb
    · have : mask.toNat.testBit j = false := by
        have h1 := Nat.testBit_mod_two_pow (mask.toNat / 2 ^ 8) b (j - 8)
        rw [show (2 : Nat) ^ 8 = 256 from rfl, hm] at h1
        simp only [Nat.zero_testBit, hb, decide_true, Bool.true_and] at h1
        rw [show (256 : Nat) = 2 ^ 8 from rfl, Nat.testBit_div_two_pow, Nat.sub_add_cancel h8] at h1
        exact h1.symm
      simp [BitVec.getLsbD, this]
    · simp [BitVec.getLsbD_ofNat, field_high_bit b f (j - 8) h hb]

/-- Two disjoint fields are outside a mask when each is. -/
theorem or_masked (a b mask : Word) (ha : a &&& mask = 0) (hb : b &&& mask = 0) : (a ||| b) &&& mask = 0 := by
  rw [BitVec.and_comm, BitVec.and_or_distrib_left, BitVec.and_comm mask a, ha, BitVec.and_comm mask b, hb]; rfl

theorem nop : Statement .nop := fun _ => by decide

theorem caInit (len rule : Nat) : Statement (.caInit len rule) := by
  intro h
  show (Opcode.matchWord .caInit ||| (BitVec.ofNat 32 rule <<< 8 ||| BitVec.ofNat 32 len)) &&& 0xFFFF00C0 = Opcode.matchWord .caInit
  rw [show Opcode.matchWord .caInit = 0x10000000#32 from rfl]
  exact masked_word _ _ _ (by decide)
    (or_masked _ _ _ (high_field_masked 8 rule h.2 _ (by decide)) (low_field_masked len h.1 _ (by decide)))

theorem caSetRule (rule : Nat) : Statement (.caSetRule rule) := by
  intro h
  show (Opcode.matchWord .caSetRule ||| (BitVec.ofNat 32 rule <<< 8)) &&& 0xFFFF00FF = Opcode.matchWord .caSetRule
  rw [show Opcode.matchWord .caSetRule = 0x11000000#32 from rfl]
  exact masked_word _ _ _ (by decide) (high_field_masked 8 rule h _ (by decide))

theorem caSetState : Statement .caSetState := fun _ => by decide

theorem caRandomize : Statement .caRandomize := fun _ => by decide

theorem caResetState : Statement .caResetState := fun _ => by decide

theorem caAdvance : Statement .caAdvance := fun _ => by decide

theorem lfsrInit (nbits : Nat) : Statement (.lfsrInit nbits) := by
  intro h
  show (Opcode.matchWord .lfsrInit ||| (BitVec.ofNat 32 nbits)) &&& 0xFFFFFFC0 = Opcode.matchWord .lfsrInit
  rw [show Opcode.matchWord .lfsrInit = 0x20000000#32 from rfl]
  exact masked_word _ _ _ (by decide) (low_field_masked nbits h _ (by decide))

theorem lfsrSetRule : Statement .lfsrSetRule := fun _ => by decide

theorem lfsrSetState : Statement .lfsrSetState := fun _ => by decide

theorem lfsrRandomize : Statement .lfsrRandomize := fun _ => by decide

theorem lfsrResetState : Statement .lfsrResetState := fun _ => by decide

theorem lfsrAdvance : Statement .lfsrAdvance := fun _ => by decide

theorem selChoose (n k : Nat) : Statement (.selChoose n k) := by
  intro h
  show (Opcode.matchWord .selChoose ||| (BitVec.ofNat 32 n <<< 8 ||| BitVec.ofNat 32 k)) &&& 0xFFFFC0C0 = Opcode.matchWord .selChoose
  rw [show Opcode.matchWord .selChoose = 0x30000000#32 from rfl]
  exact masked_word _ _ _ (by decide)
    (or_masked _ _ _ (high_field_masked 6 n h.1 _ (by decide)) (low_field_masked k h.2 _ (by decide)))

theorem selCombination (n k : Nat) : Statement (.selCombination n k) := by
  intro h
  show (Opcode.matchWord .selCombination ||| (BitVec.ofNat 32 n <<< 8 ||| BitVec.ofNat 32 k)) &&& 0xFFFFC0C0 = Opcode.matchWord .selCombination
  rw [show Opcode.matchWord .selCombination = 0x31000000#32 from rfl]
  exact masked_word _ _ _ (by decide)
    (or_masked _ _ _ (high_field_masked 6 n h.1 _ (by decide)) (low_field_masked k h.2 _ (by decide)))

theorem pendInit : Statement .pendInit := fun _ => by decide

theorem pendSetState : Statement .pendSetState := fun _ => by decide

theorem pendSetDt : Statement .pendSetDt := fun _ => by decide

theorem pendRandomize : Statement .pendRandomize := fun _ => by decide

theorem pendAdvance : Statement .pendAdvance := fun _ => by decide

theorem pendDerivs : Statement .pendDerivs := fun _ => by decide

end Sys2Proof.Laws.EncodingRow
end

