-- ==== Sys2Proof/Machine/HostProgram.lean ====
section
/-! DEFINITION. The notation of host programs (30_encoding.md R119, R120): each source line is the list of bus requests
it stands for, in order. A host program is no state of the block: it is a list of events the block receives. -/

namespace Sys2Proof.Machine

/-- `WR <reg>, <value>`: `MemWrite(off(reg), 4, value)` (R119). -/
def hostWrite (r : Reg) (v : Word) : List Event :=
  [.access { write := true, off := BitVec.ofNat 8 r.offset, be := 0xF, data := v }]

/-- `RD <reg>`: `MemRead(off(reg), 4)` (R119). -/
def hostRead (r : Reg) : List Event :=
  [.access { write := false, off := BitVec.ofNat 8 r.offset, be := 0xF, data := 0 }]

/-- A command line: the write of its word to CMD (R119). -/
def hostCommand (i : Instr) : List Event := hostWrite .cmd (encode i)

/-- `CA_LOAD v` (R120). -/
def hostCaLoad (v : Word) : List Event := hostWrite .arg0 v ++ hostCommand .caSetState

/-- `LFSR_CONFIG n, init, rule` (R120). -/
def hostLfsrConfig (n : Nat) (init rule : Word) : List Event :=
  hostWrite .arg0 init ++ hostWrite .arg1 rule ++ hostCommand (.lfsrInit n)

/-- `LFSR_RULE rule` (R120). -/
def hostLfsrRule (rule : Word) : List Event := hostWrite .arg0 rule ++ hostCommand .lfsrSetRule

/-- `LFSR_LOAD v` (R120). -/
def hostLfsrLoad (v : Word) : List Event := hostWrite .arg0 v ++ hostCommand .lfsrSetState

/-- `SEL_PICK n, k, m` (R120). -/
def hostSelPick (n k : Nat) (m : Word) : List Event := hostWrite .arg0 m ++ hostCommand (.selCombination n k)

/-- `PEND_CONFIG l1, l2, m1, m2, dt` (R120). -/
def hostPendConfig (l1 l2 m1 m2 dt : Word) : List Event :=
  hostWrite .arg0 l1 ++ hostWrite .arg1 l2 ++ hostWrite .arg2 m1 ++ hostWrite .arg3 m2 ++ hostWrite .arg4 dt
    ++ hostCommand .pendInit

/-- `PEND_LOAD t1, w1, t2, w2` (R120). -/
def hostPendLoad (t1 w1 t2 w2 : Word) : List Event :=
  hostWrite .arg0 t1 ++ hostWrite .arg1 w1 ++ hostWrite .arg2 t2 ++ hostWrite .arg3 w2 ++ hostCommand .pendSetState

/-- `PEND_DT dt` (R120). -/
def hostPendDt (dt : Word) : List Event := hostWrite .arg0 dt ++ hostCommand .pendSetDt

/-- `CLRERR` (R120): `WR ERRFLAGS, 0x7E`. -/
def hostClrErr : List Event := hostWrite .errflags 0x7E

/-- `CHECK` (R120): `RD STATUS`, whose value the host tests with `checkPassed`. -/
def hostCheck : List Event := hostRead .status

/-- The host's test of a STATUS value after `CHECK`: `v[3:0] = 0` (R120). -/
def checkPassed (v : Word) : Bool := bits v 3 0 == 0

/-- `round(num / den)` to the nearest integer, a tie upward (log 11), for den > 0. -/
def roundRatio (num : Int) (den : Nat) : Int := (2 * num + den) / (2 * den)

/-- The literal `q(num / den)`: `round(num / den · 2^24)` in two's complement (R119). -/
def qLiteral (num : Int) (den : Nat) : Word := wrap32 (roundRatio (num * 2 ^ 24) den)

/-- The literal `turn(num / den)`: `round(num / den · 2^32) mod 2^32` (R119). -/
def turnLiteral (num : Int) (den : Nat) : Word := wrap32 (roundRatio (num * 2 ^ 32) den)

end Sys2Proof.Machine
end

