-- ==== Sys2Proof/Tests/Slice0.lean ====
section
/-! SUPPORT. The model's own tests, each one step or one function on fixed values, with the expected result taken from
95_test_vectors.md or from the examples of the rules; and, for every statement with hypotheses, a witness that meets
them, one for each clause, at the edge of its range. -/

namespace Sys2Proof.Tests

open Sys2Proof.Machine

/-- The answer is a next state whose registers read as listed. -/
def reads (o : Answer) (l : List (Reg × Word)) : Bool :=
  match o with
  | .next t => l.all (fun p => readReg t p.1 == p.2)
  | _ => false

/-- The answer is a next state with this entropy left and these responses given. -/
def leaves (o : Answer) (entropy : List Word) (responses : List Response) : Bool :=
  match o with
  | .next t => t.entropy == entropy && t.responses == responses
  | _ => false

/-- The reset state with ARG0 to ARG4 as given. -/
def withArgs (a0 a1 a2 a3 a4 : Word) : State :=
  { State.reset with arg0 := a0, arg1 := a1, arg2 := a2, arg3 := a3, arg4 := a4 }

/-- The reset state with a ring of `len` cells, a rule and a state. -/
def ring (len rule : Nat) (v : Word) : State := { State.reset with ca := { state := v, cfg := caCfgWord len rule } }

/-- The reset state with an LFSR of width n, a rule, a state and a saved state. -/
def shifter (n : Nat) (rule v saved : Word) : State :=
  { State.reset with
    lfsr := { state := v, cfg := lfsrCfgWord n, rule := rule, taps := tapMask rule.toNat, saved := saved } }

/-- The reset state with another pendulum state. -/
def swing (th1 w1 th2 w2 : Word) : State :=
  { State.reset with pend := { PendUnit.reset with th1 := th1, w1 := w1, th2 := th2, w2 := w2 } }

/-- The reset state with entropy words offered. -/
def offered (l : List Word) : State := { State.reset with entropy := l }

/-- The reset state with one event pending. -/
def pending (e : Event) : State := { State.reset with events := [e] }

/-! ### WellFormed refuses a term that breaks each check (R112) -/

theorem test_wellFormed_len : ¬ WellFormed (.caInit 64 0) := by decide
theorem test_wellFormed_initRule : ¬ WellFormed (.caInit 3 256) := by decide
theorem test_wellFormed_setRule : ¬ WellFormed (.caSetRule 256) := by decide
theorem test_wellFormed_nbits : ¬ WellFormed (.lfsrInit 64) := by decide
theorem test_wellFormed_choose_n : ¬ WellFormed (.selChoose 64 0) := by decide
theorem test_wellFormed_choose_k : ¬ WellFormed (.selChoose 0 64) := by decide
theorem test_wellFormed_combination_n : ¬ WellFormed (.selCombination 64 0) := by decide
theorem test_wellFormed_combination_k : ¬ WellFormed (.selCombination 0 64) := by decide
theorem test_wellFormed_edges : WellFormed (.caInit 63 255) ∧ WellFormed (.selChoose 63 63) := by decide

/-! ### Every command's word, written out from the patterns of R114 -/

theorem test_decode_nop : decode 0b00000000_00000000_00000000_00000000 = .ok .nop := by decide
theorem test_decode_caInit : decode 0b00010000_00000000_01101110_00010000 = .ok (.caInit 16 110) := by decide
theorem test_decode_caSetRule : decode 0b00010001_00000000_10100101_00000000 = .ok (.caSetRule 165) := by decide
theorem test_decode_caSetState : decode 0b00010010_00000000_00000000_00000000 = .ok .caSetState := by decide
theorem test_decode_caRandomize : decode 0b00010011_00000000_00000000_00000000 = .ok .caRandomize := by decide
theorem test_decode_caResetState : decode 0b00010100_00000000_00000000_00000000 = .ok .caResetState := by decide
theorem test_decode_caAdvance : decode 0b00010101_00000000_00000000_00000000 = .ok .caAdvance := by decide
theorem test_decode_lfsrInit : decode 0b00100000_00000000_00000000_00101001 = .ok (.lfsrInit 41) := by decide
theorem test_decode_lfsrSetRule : decode 0b00100001_00000000_00000000_00000000 = .ok .lfsrSetRule := by decide
theorem test_decode_lfsrSetState : decode 0b00100010_00000000_00000000_00000000 = .ok .lfsrSetState := by decide
theorem test_decode_lfsrRandomize : decode 0b00100011_00000000_00000000_00000000 = .ok .lfsrRandomize := by decide
theorem test_decode_lfsrResetState : decode 0b00100100_00000000_00000000_00000000 = .ok .lfsrResetState := by decide
theorem test_decode_lfsrAdvance : decode 0b00100101_00000000_00000000_00000000 = .ok .lfsrAdvance := by decide
theorem test_decode_selChoose : decode 0b00110000_00000000_00000101_00000010 = .ok (.selChoose 5 2) := by decide
theorem test_decode_selCombination :
    decode 0b00110001_00000000_00100000_00010000 = .ok (.selCombination 32 16) := by decide
theorem test_decode_pendInit : decode 0b01000000_00000000_00000000_00000000 = .ok .pendInit := by decide
theorem test_decode_pendSetState : decode 0b01000001_00000000_00000000_00000000 = .ok .pendSetState := by decide
theorem test_decode_pendSetDt : decode 0b01000010_00000000_00000000_00000000 = .ok .pendSetDt := by decide
theorem test_decode_pendRandomize : decode 0b01000011_00000000_00000000_00000000 = .ok .pendRandomize := by decide
theorem test_decode_pendAdvance : decode 0b01000100_00000000_00000000_00000000 = .ok .pendAdvance := by decide
theorem test_decode_pendDerivs : decode 0b01000101_00000000_00000000_00000000 = .ok .pendDerivs := by decide

/-- V-ENC-2, 3, 5, 6, 10, 11: reserved bits and unassigned opcodes. -/
theorem test_decode_illegal :
    decode 0x12000001 = .error (.reservedBit .caSetState) ∧ decode 0x16000000 = .error (.unassignedOpcode 0x16)
      ∧ decode 0x10000040 = .error (.reservedBit .caInit) ∧ decode 0x30004002 = .error (.reservedBit .selChoose)
      ∧ decode 0xFFFFFFFF = .error (.unassignedOpcode 0xFF)
      ∧ decode 0x45000080 = .error (.reservedBit .pendDerivs) := by
  decide

/-- The words of 95_test_vectors.md P1 to P3, from the encoder. -/
theorem test_encode :
    encode (.caInit 16 90) = 0x10005A10 ∧ encode (.caSetRule 30) = 0x11001E00 ∧ encode (.lfsrInit 4) = 0x20000004
      ∧ encode (.selChoose 33 2) = 0x30002102 ∧ encode (.selCombination 5 2) = 0x31000502 := by decide

theorem test_decodeTableWord : decodeTableWord 32 0x10006E10 = some (.caInit 16 110) ∧ decodeTableWord 32 1 = none := by
  decide

/-! ### System and CA commands (V-ENC, V-CA) -/

theorem test_nop_keeps_flags : reads (exec .nop { State.reset with status := 1, errflags := 2 })
    [(.status, 0), (.errflags, 2)] = true := by decide
theorem test_caInit : reads (exec (.caInit 16 110) (ring 16 90 0x1234))
    [(.status, 0), (.caCfg, 0x6E10), (.caState, 0)] = true := by decide
theorem test_caInit_refused : reads (exec (.caInit 2 30) (ring 16 110 0x1234))
    [(.status, 1), (.errflags, 2), (.caCfg, 0x6E10), (.caState, 0x1234)] = true := by decide
theorem test_caSetRule : reads (exec (.caSetRule 30) (ring 16 110 0x1234))
    [(.caCfg, 0x1E10), (.caState, 0x1234)] = true := by decide
theorem test_caSetState : reads (exec .caSetState (withArgs 0x00012345 0 0 0 0)) [(.caState, 0x2345)] = true := by
  decide
theorem test_caRandomize : reads (exec .caRandomize (offered [0xCAFEBEEF])) [(.caState, 0xBEEF)] = true := by decide
theorem test_caResetState : reads (exec .caResetState (ring 16 30 0xBEEF)) [(.caState, 0), (.caCfg, 0x1E10)]
    = true := by
  decide
theorem test_caAdvance_wrap : reads (exec .caAdvance (ring 16 170 0x8001)) [(.caState, 0x0003)] = true := by decide
theorem test_caAdvance_whole : reads (exec .caAdvance (ring 32 150 0x80000001)) [(.caState, 0x40000002)] = true := by
  decide

/-- V-CA-16: the map of rule 30 on three cells. -/
theorem test_caNext_three_cells : (List.range 8).map (fun v => (caNext (BitVec.ofNat 32 v) 3 30).toNat)
    = [0, 7, 7, 2, 7, 1, 4, 0] := by decide

/-! ### LFSR commands (V-LFSR) -/

theorem test_lfsrInit_empty_taps : reads (exec (.lfsrInit 9) (withArgs 1 256 0 0 0))
    [(.status, 0), (.lfsrState, 1), (.lfsrCfg, 9), (.lfsrRule, 256), (.lfsrTaps, 0), (.lfsrSaved, 1)] = true := by
      decide
theorem test_lfsrInit_check_order : reads (exec (.lfsrInit 8) (withArgs 0 128 0 0 0))
    [(.status, 1), (.errflags, 2), (.lfsrState, 1)] = true := by decide
theorem test_lfsrSetRule : reads (exec .lfsrSetRule (withArgs 14 0 0 0 0)) [(.lfsrRule, 14),
    (.lfsrTaps, 0x1C)] = true := by
  decide
theorem test_lfsrSetRule_invalid_tap : reads (exec .lfsrSetRule (withArgs 128 0 0 0 0))
    [(.status, 2), (.errflags, 4), (.lfsrRule, 1)] = true := by decide
theorem test_lfsrSetState : reads (exec .lfsrSetState (withArgs 0x1A5 0 0 0 0))
    [(.lfsrState, 0xA5), (.lfsrSaved, 0xA5)] = true := by decide
theorem test_lfsrRandomize_skips : reads (exec .lfsrRandomize (offered [0x00000F00, 0x12345A5A, 7]))
      [(.lfsrState, 0x5A), (.lfsrSaved, 1)] = true
    ∧ leaves (exec .lfsrRandomize (offered [0x00000F00, 0x12345A5A, 7])) [7] [] = true := by decide
theorem test_lfsrResetState : reads (exec .lfsrResetState (shifter 8 1 0xC0 0x81)) [(.lfsrState, 0x81)] = true := by
  decide
theorem test_lfsrAdvance : reads (exec .lfsrAdvance (shifter 8 14 0xA5 1)) [(.lfsrState, 0x52),
    (.lfsrSaved, 1)] = true := by
  decide
theorem test_lfsrAdvance_whole : reads (exec .lfsrAdvance (shifter 32 0xC5 0x12345678 1))
    [(.lfsrState, 0x891A2B3C)] = true := by decide

/-! ### SEL commands (V-SEL) -/

theorem test_selChoose : reads (exec (.selChoose 20 10) State.reset) [(.selChoose, 184756), (.selCfg, 0)] = true := by
  decide +kernel
theorem test_selChoose_refused : reads (exec (.selChoose 33 2) State.reset)
    [(.status, 1), (.errflags, 2), (.selChoose, 0)] = true := by decide
theorem test_selCombination : reads (exec (.selCombination 10 4) (withArgs 100 0 0 0 0))
    [(.selIdx0, 0x08060201), (.selIdx1, 0xFFFFFFFF), (.selMask, 0x146), (.selCfg, 0x0A04), (.selM, 100),
     (.selChoose, 0)] = true := by decide +kernel
theorem test_selCombination_range : reads (exec (.selCombination 5 2) (withArgs 10 0 0 0 0))
    [(.status, 3), (.errflags, 8), (.selIdx0, 0xFFFFFFFF)] = true := by decide +kernel

/-! ### PEND numerics and commands (V-PEND) -/

/-- V-PEND-1. -/
theorem test_sin_cos : qsin 0x15555555 = 0x00800859 ∧ qcos 0x15555555 = 0x00DDCDA2 ∧ qsin 0xAAAAAAAB = -0xDDCDA2
    ∧ qcos 0x00000001 = 0x00FFFFFF ∧ qsin 0x40000001 = 0x00FFFFFF ∧ qcos 0xFFFFFFFF = 0x00FFFFFF := by decide +kernel

/-- V-PEND-2. -/
theorem test_mul_div_ang : qmul (-1) 1 = -1 ∧ qmul 0x01800000 0x01800000 = 0x02400000 ∧ qdiv (-1) 0x03000000 = 0
    ∧ qdiv (-0x01000000) 0x03000000 = -5592405 ∧ ang (-1) = 0xFFFFFFD7 ∧ ang 0x01000000 = 0x28BE60DC := by
      decide +kernel

theorem test_pendInit : reads (exec .pendInit
      { withArgs 0x01000000 0x01000000 0x01000000 0x01000000 0x00040000 with entropy := [0x12345678, 0x9ABCDEF0] })
    [(.status, 0), (.pendTh1, 0x12345678), (.pendTh2, 0x9ABCDEF0), (.pendW1, 0), (.pendDt, 0x00040000)] = true := by
      decide
theorem test_pendInit_refused_draws_nothing :
    leaves (exec .pendInit { withArgs 1 0 1 1 1 with entropy := [5, 6] }) [5, 6] [] = true
    ∧ reads (exec .pendInit { withArgs 1 0 1 1 1 with entropy := [5, 6] }) [(.status, 1),
    (.pendL1, 0x01000000)] = true := by
  decide
theorem test_pendSetState : reads (exec .pendSetState (withArgs 1 2 3 4 5))
    [(.pendTh1, 1), (.pendW1, 2), (.pendTh2, 3), (.pendW2, 4), (.pendDt, 0x00028F5C)] = true := by decide
theorem test_pendSetDt : reads (exec .pendSetDt (withArgs 0x00040000 0 0 0 0)) [(.pendDt, 0x00040000)] = true := by
  decide
theorem test_pendSetDt_refused : reads (exec .pendSetDt (withArgs 0 0 0 0 0)) [(.status, 1),
    (.pendDt, 0x00028F5C)] = true := by
  decide
theorem test_pendRandomize : reads (exec .pendRandomize (offered [0x40000000, 0xC0000000]))
    [(.pendTh1, 0x40000000), (.pendTh2, 0xC0000000), (.pendW1, 0), (.pendW2, 0)] = true := by decide
/-- V-PEND-5, the second step. -/
theorem test_pendAdvance : reads (exec .pendAdvance (swing 0x20000000 0xFFE85470 0x00000000 0x0010BE9A))
    [(.pendTh1, 0x1FF65B07), (.pendW1, 0xFFD0A5AF), (.pendTh2, 0x0006D268), (.pendW2, 0x0021836D),
     (.outT1, 0x1FF65B07), (.outX1, 0x00B4EE02), (.outY1, 0xFF4ABC37), (.outT2, 0x0006D268), (.outX2, 0x00002ADC),
     (.outY2, 0xFF000004), (.status, 0)] = true := by decide +kernel
/-- V-PEND-10(b). -/
theorem test_pendAdvance_overflow : reads (exec .pendAdvance (swing 0xC0000000 0x7FFFFFFF 0xC0000000 0))
    [(.status, 5), (.errflags, 0x20), (.pendW1, 0x7FFFFFFF), (.pendTh1, 0xC0000000)] = true := by decide +kernel
/-- V-PEND-4(b). -/
theorem test_pendDerivs : reads (exec .pendDerivs (swing 0x20000000 0 0 0))
    [(.drvDth1, 0), (.drvDw1, 0xF6C0FB54), (.drvDth2, 0), (.drvDw2, 0x068A74A9), (.status, 0)] = true := by
      decide +kernel
/-- V-PEND-9(c): l1 = 127.0 and l2 = 2^-24. -/
theorem test_pendDerivs_degenerate : reads (exec .pendDerivs
      { State.reset with pend := { PendUnit.reset with l1 := 0x7F000000, l2 := 1 } })
    [(.status, 4), (.errflags, 0x10), (.drvDw1, 0)] = true := by decide +kernel

/-! ### The bus, reset and the step (V-BUS) -/

/-- V-BUS-1(b): writes to STATUS, CA_STATE and offset 0x0C are ignored. -/
theorem test_write_ignored : reads (writeWindow 0x04 0x12345678 State.reset) [(.status, 0)] = true
    ∧ reads (writeWindow 0x40 0x12345678 State.reset) [(.caState, 0)] = true
    ∧ readWindow State.reset 0x0C = 0 ∧ readWindow State.reset 0x00 = 0 := by decide

/-- V-BUS-1(c): a byte write to ARG0 and a word write to offset 0x12 get the error response. -/
theorem test_refused_access :
    leaves (step (pending (.access { write := true, off := 0x10, be := 1, data := 7 }))) [] [.writeError] = true
    ∧ reads (step (pending (.access { write := true, off := 0x10, be := 1, data := 7 }))) [(.arg0, 0)] = true
    ∧ leaves (step (pending (.access { write := false, off := 0x12, be := 0xF, data := 7 }))) [] [.readError 0] = true := by
  decide

/-- R83's list of unlisted offsets is what the register map leaves out. -/
theorem test_unlisted_offsets :
    (List.range 64).filterMap (fun k => if (Reg.ofOffset? (4 * k)).isNone then some (4 * k) else none) = unlistedOffsets := by
  decide

/-- V-BUS-1(d). -/
theorem test_errflags_clear : reads (writeWindow 0x08 0x08 { State.reset with errflags := 0x4A }) [(.errflags, 0x42)] = true
    ∧ reads (writeWindow 0x08 0xFFFFFF80 { State.reset with errflags := 0x42 }) [(.errflags, 0x42)] = true := by decide

/-- V-BUS-1(e): reset from another state, a read of LFSR_TAPS and of SEL_IDX7. -/
theorem test_reset_event : reads (step { shifter 8 14 0xA5 1 with events := [.reset] })
    [(.lfsrTaps, 2), (.lfsrState, 1), (.selIdx7, 0xFFFFFFFF), (.pendG, 0x09CCCCCD)] = true := by decide

/-- R341: a PEND_INIT abandoned after one word keeps none of its writes, and that word is gone. -/
theorem test_reset_during_command :
    reads (step { offered [5, 6] with arg0 := 1, arg1 := 1, arg2 := 1, arg3 := 1, arg4 := 1,
                                      events := [.resetDuring 0x40000000 1] })
      [(.pendTh1, 0), (.pendL1, 0x01000000), (.arg0, 0)] = true := by decide

/-- The first instruction after reset is the one withFetchWord places. -/
theorem test_withFetchWord : reads (step (State.reset.withFetchWord 32 0x10006E10)) [(.caCfg, 0x6E10)] = true
    ∧ reads (step (State.reset.withFetchWord 32 0x12000001)) [(.status, 6), (.errflags, 0x40)] = true := by decide

/-- P1 step 15 and P2 steps 1 to 3: the accesses a source line stands for. -/
theorem test_host_lines : hostClrErr = [.access { write := true, off := 0x08, be := 0xF, data := 0x7E }]
    ∧ hostLfsrConfig 4 1 1 = [.access { write := true, off := 0x10, be := 0xF, data := 1 },
        .access { write := true, off := 0x14, be := 0xF, data := 1 }, .access (cmdWrite 0x20000004)] := by decide

/-- P4 and P5: q(1.0), turn(0.25). -/
theorem test_literals : qLiteral 1 1 = 0x01000000 ∧ turnLiteral 1 4 = 0x40000000 ∧ qLiteral 98 10 = 0x09CCCCCD := by
  decide

/-! ### Witnesses: encoding -/

theorem witness_DecodeOfEncode : WellFormed .nop ∧ WellFormed (.caInit 0 0) ∧ WellFormed (.caInit 63 255)
    ∧ WellFormed (.caSetRule 255) ∧ WellFormed (.lfsrInit 63) ∧ WellFormed (.selChoose 63 63)
    ∧ WellFormed (.selCombination 63 63) ∧ WellFormed .pendDerivs := by decide

theorem witness_EncodeOfDecode : decode 0x1000FF3F = .ok (.caInit 63 255)
    ∧ decode 0x31003F3F = .ok (.selCombination 63 63)
    ∧ decode 0x45000000 = .ok .pendDerivs := by decide

theorem witness_IllegalWord_unassigned :
    (∀ o : Opcode, o.code ≠ (0x46000000 : Word).toNat / 2 ^ 24)
      ∧ (pending (.access (cmdWrite 0x46000000))).events = .access (cmdWrite 0x46000000) :: [] :=
  ⟨fun o => by cases o <;> decide, rfl⟩

theorem witness_IllegalWord_reservedBit :
    (∃ o : Opcode, o.code = (0x10000040 : Word).toNat / 2 ^ 24
      ∧ (0x10000040 : Word) &&& o.format.mask &&& 0x00FFFFFF ≠ 0)
      ∧ (pending (.access (cmdWrite 0x10000040))).events = .access (cmdWrite 0x10000040) :: [] :=
  ⟨⟨.caInit, by decide⟩, rfl⟩

theorem witness_NopEffect_otherWords : (0x00FFFFFF : Word).toNat < 2 ^ 24 ∧ (0x00FFFFFF : Word) ≠ 0
    ∧ (0x00000001 : Word).toNat < 2 ^ 24 ∧ (0x00000001 : Word) ≠ 0 := by decide

/-! ### Witnesses: steps, the bus and reset -/

theorem witness_StepRunsDecodedCommand : ∃ t : State,
    (pending (.access (cmdWrite 0x10006E10))).events = .access (cmdWrite 0x10006E10) :: []
      ∧ decode 0x10006E10 = .ok (.caInit 16 110)
      ∧ exec (.caInit 16 110) { pending (.access (cmdWrite 0x10006E10)) with events := [] } = .next t :=
  ⟨_, rfl, by decide, rfl⟩

theorem witness_StepServesAccessesInOrder : ∃ t : State,
    (pending (.access { write := false, off := 0xEC, be := 0xF, data := 0 })).events
        = .access { write := false, off := 0xEC, be := 0xF, data := 0 } :: []
      ∧ step (pending (.access { write := false, off := 0xEC, be := 0xF, data := 0 })) = .next t := ⟨_, rfl, rfl⟩

/-- The small edge of the invariant (L = 3, N = 2), with a CA_ADVANCE pending. -/
def smallest : State :=
  { State.reset with
    status := 6, errflags := 0x7E,
    ca := { state := 7, cfg := caCfgWord 3 255 },
    lfsr := { state := 3, cfg := 2, rule := 1, taps := 2, saved := 0 },
    pend := { PendUnit.reset with l1 := 1, l2 := 1, m1 := 1, m2 := 1, dt := 1 },
    events := [.access (cmdWrite 0x15000000)] }

/-- The large edge of the invariant (L = N = 32), with an LFSR_ADVANCE pending. -/
def largest : State :=
  { State.reset with
    ca := { state := 0xFFFFFFFF, cfg := caCfgWord 32 255 },
    lfsr := { state := 0xFFFFFFFF, cfg := 32, rule := 0x80000000, taps := 0, saved := 0xFFFFFFFF },
    pend := { PendUnit.reset with l1 := 0x7FFFFFFF, dt := 0x7FFFFFFF },
    events := [.access (cmdWrite 0x25000000)] }

theorem witness_StepKeepsInvariant :
    (smallest.Inv ∧ ∃ t : State, step smallest = .next t) ∧ (largest.Inv ∧ ∃ t : State, step largest = .next t) :=
  ⟨⟨by decide, _, rfl⟩, ⟨by decide, _, rfl⟩⟩

theorem witness_ResetEvent : (pending .reset).events = .reset :: [] := rfl

theorem witness_ResetDuringCommand :
    (pending (.resetDuring 0x40000000 1)).events = .resetDuring 0x40000000 1 :: [] := rfl

theorem witness_ResetKeepsInputsAndIdleStepHolds :
    (pending .reset).events = .reset :: [] ∧ State.reset.events = [] := ⟨rfl, rfl⟩

/-- A read of CMD, of the last register and of the last unlisted offset. -/
theorem witness_AdmittedRead : ∀ off ∈ [(0x00 : BitVec 8), 0xEC, 0xFC],
    (pending (.access { write := false, off := off, be := 0xF, data := 0 })).events
        = .access { write := false, off := off, be := 0xF, data := 0 } :: []
      ∧ off.toNat % 4 = 0 := by decide

/-- A write to each offset that a clause names, and to the first and the last offset of the last clause. -/
theorem witness_AdmittedWrite :
    (∀ off ∈ [(0x10 : BitVec 8), 0x14, 0x18, 0x1C, 0x20, 0x08],
      (pending (.access { write := true, off := off, be := 0xF, data := 0xFFFFFFFF })).events
        = .access { write := true, off := off, be := 0xF, data := 0xFFFFFFFF } :: [])
    ∧ ∀ off ∈ [(0x04 : BitVec 8), 0x24, 0xEC, 0xFC],
      (pending (.access { write := true, off := off, be := 0xF, data := 0xFFFFFFFF })).events
          = .access { write := true, off := off, be := 0xF, data := 0xFFFFFFFF } :: []
        ∧ off.toNat % 4 = 0 ∧ off.toNat ∉ [0x00, 0x08, 0x10, 0x14, 0x18, 0x1C, 0x20] := by decide

theorem witness_RefusedAccess_partial :
    let a : Access := { write := true, off := 0x00, be := 0x7, data := 0 }
    (pending (.access a)).events = .access a :: [] ∧ (a.be ≠ 0xF ∨ a.off.toNat % 4 ≠ 0) := by decide

theorem witness_RefusedAccess_misaligned :
    let a : Access := { write := false, off := 0xFF, be := 0xF, data := 0 }
    (pending (.access a)).events = .access a :: [] ∧ (a.be ≠ 0xF ∨ a.off.toNat % 4 ≠ 0) := by decide

/-! ### Witnesses: every command -/

/-- Hypotheses of CommandsEndOkOrPrecisely, ResultsByCommand, CommandsKeepArguments and StatusIsNeverRead: a command that
ends OK, one that raises an error, and a word that fails decode. -/
theorem witness_Commands : ∃ t u v : State,
    exec .caAdvance State.reset = .next t ∧ exec (.caInit 2 30) State.reset = .next u
      ∧ decode 0xFFFFFFFF = .error (.unassignedOpcode 0xFF) ∧ execute 0xFFFFFFFF State.reset = .next v :=
  ⟨_, _, _, rfl, rfl, by decide, rfl⟩

theorem witness_UnitsAreIndependent : ∃ t u v w : State,
    (exec .caAdvance State.reset = .next t ∧ Owner.of .caAdvance = .ca ∧ Owner.of .caAdvance ≠ .lfsr)
      ∧ (exec .lfsrAdvance State.reset = .next u ∧ Owner.of .lfsrAdvance = .lfsr ∧ Owner.of .lfsrAdvance ≠ .sel)
      ∧ (exec (.selChoose 33 2) State.reset = .next v ∧ Owner.of (.selChoose 33 2) = .sel
      ∧ Owner.of (.selChoose 33 2) ≠ .pend)
      ∧ (exec .pendSetState State.reset = .next w ∧ Owner.of .pendSetState = .pend ∧ Owner.of .pendSetState ≠ .ca) :=
  ⟨_, _, _, _, ⟨rfl, by decide⟩, ⟨rfl, by decide⟩, ⟨rfl, by decide⟩, ⟨rfl, by decide⟩⟩

theorem witness_OnlyDrawingCommands : ∃ t : State,
    exec .pendSetState (offered [1]) = .next t ∧ drawsEntropy .pendSetState = false := ⟨_, rfl, rfl⟩

/-! ### Witnesses: CA -/

theorem witness_CaInit_accepts : WellFormed (.caInit 3 0) ∧ (3 ≤ 3 ∧ 3 ≤ 32) ∧ WellFormed (.caInit 32 255)
    ∧ (3 ≤ 32 ∧ 32 ≤ 32) := by decide

theorem witness_CaInit_refuses : WellFormed (.caInit 0 0) ∧ (0 < 3 ∨ 32 < 0) ∧ WellFormed (.caInit 2 255)
    ∧ (2 < 3 ∨ 32 < 2)
    ∧ WellFormed (.caInit 33 0) ∧ (33 < 3 ∨ 32 < 33) ∧ WellFormed (.caInit 63 255) ∧ (63 < 3 ∨ 32 < 63) := by decide

theorem witness_CaSetRule : WellFormed (.caSetRule 0) ∧ WellFormed (.caSetRule 255) := by decide

theorem witness_CaRandomize : (offered [0xFFFFFFFF]).entropy = 0xFFFFFFFF :: [] ∧ State.reset.entropy = []
    ∧ (0 : Word).toNat < 2 ^ State.reset.ca.len ∧ (0xFFFF : Word).toNat < 2 ^ State.reset.ca.len := by decide

theorem witness_CaAdvance : (3 ≤ (ring 3 30 7).ca.len ∧ (ring 3 30 7).ca.len ≤ 32)
    ∧ (3 ≤ (ring 32 150 0xFFFFFFFF).ca.len ∧ (ring 32 150 0xFFFFFFFF).ca.len ≤ 32) := by decide

/-- Also the ring hypotheses of CaSumAndParallelFormsAgree, and the rule hypotheses of CaRuleLaws. -/
theorem witness_CaRuleLaws : (3 ≤ 3 ∧ 3 ≤ 32 ∧ (7 : Word).toNat < 2 ^ 3)
    ∧ (3 ≤ 32 ∧ 32 ≤ 32 ∧ (0xFFFFFFFF : Word).toNat < 2 ^ 32) ∧ 0 % 2 = 0 ∧ 254 % 2 = 0
    ∧ (128 ≤ 128 ∧ 128 ≤ 255) ∧ (128 ≤ 255 ∧ 255 ≤ 255) := by decide

theorem witness_CaSumAndParallelFormsAgree : 3 ≤ 3 ∧ 3 ≤ 32 ∧ (7 : Word).toNat < 2 ^ 3 := by decide

/-! ### Witnesses: LFSR -/

theorem witness_CheckRuleDecidesRule : 2 ≤ 2 ∧ checkRule 2 2 = some .invalidTap ∧ checkRule 3 2 = some .configError
    ∧ checkRule 0 2 = some .configError ∧ checkRule 128 8 = some .invalidTap ∧ checkRule 256 9 = none := by decide

theorem witness_LfsrInit_accepts : (let s := withArgs 3 1 0 0 0
    WellFormed (.lfsrInit 2) ∧ ((2 ≤ 2 ∧ 2 ≤ 32) ∧ (s.arg0 ≠ 0 ∧ s.arg0.toNat < 2 ^ 2)
      ∧ (1 ≤ s.arg1.toNat ∧ s.arg1.toNat ≤ 2 ^ (2 - 1)) ∧ ¬ (2 ≤ 8 ∧ s.arg1.toNat = 2 ^ (2 - 1))))
    ∧ (let s := withArgs 0xFFFFFFFF 0x80000000 0 0 0
    WellFormed (.lfsrInit 32) ∧ ((2 ≤ 32 ∧ 32 ≤ 32) ∧ (s.arg0 ≠ 0 ∧ s.arg0.toNat < 2 ^ 32)
      ∧ (1 ≤ s.arg1.toNat ∧ s.arg1.toNat ≤ 2 ^ (32 - 1)) ∧ ¬ (32 ≤ 8 ∧ s.arg1.toNat = 2 ^ (32 - 1)))) := by decide

/-- One state for each way to refuse: the width 1 and 33, the initial state 0 and 2^n, the rule 0 and 2^(n - 1) + 1. -/
theorem witness_LfsrInit_refuses : WellFormed (.lfsrInit 1) ∧ 1 < 2 ∧ WellFormed (.lfsrInit 33) ∧ 32 < 33
    ∧ WellFormed (.lfsrInit 8) ∧ (withArgs 0 1 0 0 0).arg0 = 0 ∧ 2 ^ 8 ≤ (withArgs 256 1 0 0 0).arg0.toNat
    ∧ (withArgs 1 0 0 0 0).arg1.toNat < 1 ∧ 2 ^ (8 - 1) < (withArgs 1 129 0 0 0).arg1.toNat := by decide

theorem witness_LfsrInit_invalidTap :
    (WellFormed (.lfsrInit 2) ∧ (2 ≤ 2 ∧ 2 ≤ 8)
      ∧ ((withArgs 1 2 0 0 0).arg0 ≠ 0 ∧ (withArgs 1 2 0 0 0).arg0.toNat < 2 ^ 2)
      ∧ (withArgs 1 2 0 0 0).arg1.toNat = 2 ^ (2 - 1))
    ∧ (WellFormed (.lfsrInit 8) ∧ (2 ≤ 8 ∧ 8 ≤ 8)
      ∧ ((withArgs 255 128 0 0 0).arg0 ≠ 0 ∧ (withArgs 255 128 0 0 0).arg0.toNat < 2 ^ 8)
      ∧ (withArgs 255 128 0 0 0).arg1.toNat = 2 ^ (8 - 1)) := by decide

theorem witness_LfsrSetRule_accepts : let s := withArgs 127 0 0 0 0
    2 ≤ s.lfsr.nbits ∧ s.lfsr.nbits ≤ 32 ∧ (1 ≤ s.arg0.toNat ∧ s.arg0.toNat ≤ 2 ^ (s.lfsr.nbits - 1))
      ∧ ¬ (s.lfsr.nbits ≤ 8 ∧ s.arg0.toNat = 2 ^ (s.lfsr.nbits - 1)) := by decide

theorem witness_LfsrSetRule_refuses :
    (let s := withArgs 0 0 0 0 0; 2 ≤ s.lfsr.nbits ∧ s.lfsr.nbits ≤ 32 ∧ s.arg0.toNat < 1)
    ∧ (let s := withArgs 129 0 0 0 0; 2 ≤ s.lfsr.nbits ∧ s.lfsr.nbits ≤ 32 ∧ 2 ^ (s.lfsr.nbits - 1) < s.arg0.toNat)
    ∧ (let s := withArgs 128 0 0 0 0
       2 ≤ s.lfsr.nbits ∧ s.lfsr.nbits ≤ 32 ∧ s.lfsr.nbits ≤ 8 ∧ s.arg0.toNat = 2 ^ (s.lfsr.nbits - 1)) := by decide

theorem witness_LfsrRandomize_listed :
    (offered [0x00000F00, 0xFFFFFF01, 9]).entropy = [0x00000F00] ++ (0xFFFFFF01 : Word) :: [9]
      ∧ (∀ x ∈ [(0x00000F00 : Word)], x.toNat % 2 ^ State.reset.lfsr.nbits = 0)
      ∧ (0xFFFFFF01 : Word).toNat % 2 ^ State.reset.lfsr.nbits ≠ 0 := by
  rw [show State.reset.lfsr.nbits = 8 by decide]; simp [offered]

theorem witness_LfsrRandomize_free :
    (2 ≤ (shifter 2 1 1 1).lfsr.nbits ∧ (shifter 2 1 1 1).lfsr.nbits ≤ 32 ∧ (shifter 2 1 1 1).entropy = [])
    ∧ (2 ≤ (offered [0x100]).lfsr.nbits ∧ (offered [0x100]).lfsr.nbits ≤ 32
      ∧ ∀ x ∈ (offered [0x100]).entropy, x.toNat % 2 ^ (offered [0x100]).lfsr.nbits = 0) := by
  rw [show (offered [0x100]).lfsr.nbits = 8 by decide, show (shifter 2 1 1 1).lfsr.nbits = 2 by decide]
  simp [offered, shifter, State.reset]

theorem witness_LfsrResetState : (withArgs 0 0 0 0 0).arg0.toNat < 2 ^ State.reset.lfsr.nbits
    ∧ (withArgs 0xFF 0 0 0 0).arg0.toNat < 2 ^ (withArgs 0xFF 0 0 0 0).lfsr.nbits
    ∧ (pending .reset).events = .reset :: [] := by decide

theorem witness_LfsrResetState_init :
    ∃ t : State, exec (.lfsrInit 2) (withArgs 3 1 0 0 0) = .next t ∧ t.status = 0 := ⟨_, rfl, rfl⟩

/-- What may come between in `restoresSaved`: an ARG0 write, a refused LFSR_SET_STATE, LFSR_RANDOMIZE and LFSR_SET_RULE. -/
theorem witness_keepsSaved : ∀ e ∈ [Event.access { write := true, off := 0x10, be := 0xF, data := 3 },
    .access { write := true, off := 0x00, be := 0x7, data := 0x22000000 },
    .access (cmdWrite 0x23000000), .access (cmdWrite 0x21000000)], keepsSaved e := by
  simp only [List.forall_mem_cons]
  refine ⟨⟨_, rfl, fun w h => ?_⟩, ⟨_, rfl, fun w h => ?_⟩, ⟨_, rfl, fun w h => ?_⟩, ⟨_, rfl, fun w h => ?_⟩, by simp⟩
  · cases h
  · cases h
  · cases h; exact ⟨by decide, fun n h => by cases h⟩
  · cases h; exact ⟨by decide, fun n h => by cases h⟩

theorem witness_LfsrAdvance :
    (let l := (shifter 2 1 3 1).lfsr; 2 ≤ l.nbits ∧ l.nbits ≤ 32 ∧ l.state.toNat < 2 ^ l.nbits)
    ∧ (let l := (shifter 32 0x80000000 0xFFFFFFFF 1).lfsr; 2 ≤ l.nbits ∧ l.nbits ≤ 32
    ∧ l.state.toNat < 2 ^ l.nbits) := by
  decide

/-- Hypotheses of LfsrAdvanceIsBijection and LfsrZeroAndRotationLaws: the narrowest width, and the widest with no tap. -/
theorem witness_LfsrLaws : (2 ≤ 2 ∧ 2 ≤ 32 ∧ checkRule 1 2 = none ∧ (3 : Word).toNat < 2 ^ 2)
    ∧ (2 ≤ 32 ∧ 32 ≤ 32 ∧ checkRule 0x80000000 32 = none ∧ (0xFFFFFFFF : Word).toNat < 2 ^ 32 ∧ 0x80000000 % 256 = 0)
    ∧ (2 ≤ 9 ∧ 9 ≤ 32 ∧ checkRule 256 9 = none ∧ 256 % 256 = 0) := by decide

/-! ### Witnesses: SEL -/

theorem witness_BinomialIsSubsetCount : 3 < 5 ∧ 5 ≤ 5 ∧ 0 ≤ 0 ∧ 32 ≤ 32 := by decide

theorem witness_SelChoose : WellFormed (.selChoose 32 32) ∧ (32 ≤ 32 ∧ 32 ≤ 32) ∧ WellFormed (.selChoose 0 0)
    ∧ (0 ≤ 32 ∧ 0 ≤ 32) ∧ WellFormed (.selChoose 33 0) ∧ 32 < 33 ∧ WellFormed (.selChoose 0 33)
    ∧ WellFormed (.selChoose 63 63) := by decide

/-- Hypotheses of CombinationShape and CombinationIsLexicographicBijection: the first and the last of C(5, 2), and the
one combination of C(0, 0). -/
theorem witness_Combination : 0 < Nat.choose 5 2 ∧ 9 < Nat.choose 5 2 ∧ 8 < 9 ∧ 0 < Nat.choose 0 0 ∧ 2 ≤ 5 ∧ 5 ≤ 5
    ∧ [3, 4].length = 2 ∧ [3, 4].Pairwise (· < ·) ∧ ∀ e ∈ [3, 4], e < 5 := by decide

theorem witness_SelCombination_accepts :
    (WellFormed (.selCombination 5 2) ∧ 5 ≤ 32 ∧ 2 ≤ 32 ∧ (withArgs 9 0 0 0 0).arg0.toNat < Nat.choose 5 2)
    ∧ (WellFormed (.selCombination 32 32) ∧ 32 ≤ 32 ∧ 32 ≤ 32 ∧ (withArgs 0 0 0 0 0).arg0.toNat < Nat.choose 32 32)
    ∧ (WellFormed (.selCombination 32 0) ∧ 32 ≤ 32 ∧ 0 ≤ 32 ∧ (withArgs 0 0 0 0 0).arg0.toNat < Nat.choose 32 0) :=
  ⟨by decide, ⟨by decide, by decide, by decide, by rw [Nat.choose_self]; decide⟩, by decide⟩

theorem witness_SelCombination_refuses :
    WellFormed (.selCombination 33 0) ∧ (32 < 33 ∨ 32 < 0) ∧ WellFormed (.selCombination 0 33) ∧ (32 < 0 ∨ 32 < 33)
    ∧ WellFormed (.selCombination 5 2) ∧ (5 ≤ 32 ∧ 2 ≤ 32 ∧ Nat.choose 5 2 ≤ (withArgs 10 0 0 0 0).arg0.toNat)
    ∧ WellFormed (.selCombination 3 5) ∧ (3 ≤ 32 ∧ 5 ≤ 32 ∧ Nat.choose 3 5 ≤ (withArgs 0 0 0 0 0).arg0.toNat) := by
  decide

/-! ### Witnesses: PEND -/

theorem witness_MulFloorsAndDivTruncates : (0 : Int) < 1 ∧ (0 : Int) ≤ 0 ∧ (-1 : Int) ≤ 0 ∧ (0 : Int) ≤ 2 ^ 31 - 1 := by
  decide

theorem witness_PositionsFit : 0 < sext32 1 ∧ 0 < sext32 0x7FFFFFFF := by decide

theorem witness_PendInit_refuses : (withArgs 0 1 1 1 1).arg0.toInt ≤ 0 ∧ (withArgs 1 0x80000000 1 1 1).arg1.toInt ≤ 0
    ∧ (withArgs 1 1 0xFFFFFFFF 1 1).arg2.toInt ≤ 0 ∧ (withArgs 1 1 1 0 1).arg3.toInt ≤ 0
    ∧ (withArgs 1 1 1 1 0).arg4.toInt ≤ 0 := by decide

theorem witness_PendInit_accepts :
    let s : State := { withArgs 1 0x7FFFFFFF 1 0x7FFFFFFF 1 with entropy := [0, 0xFFFFFFFF] }
    (0 < s.arg0.toInt ∧ 0 < s.arg1.toInt ∧ 0 < s.arg2.toInt ∧ 0 < s.arg3.toInt ∧ 0 < s.arg4.toInt)
      ∧ s.entropy = 0 :: 0xFFFFFFFF :: []
      ∧ ({ s with entropy := [7] } : State).entropy = [7] ∧ ({ s with entropy := [] } : State).entropy = [] := by decide

theorem witness_PendSetDt : 0 < (withArgs 1 0 0 0 0).arg0.toInt ∧ 0 < (withArgs 0x7FFFFFFF 0 0 0 0).arg0.toInt
    ∧ (withArgs 0 0 0 0 0).arg0.toInt ≤ 0 ∧ (withArgs 0x80000000 0 0 0 0).arg0.toInt ≤ 0 := by decide

theorem witness_PendRandomize : (offered [0x40000000, 0xC0000000]).entropy = 0x40000000 :: 0xC0000000 :: []
    ∧ (offered [7]).entropy = [7] ∧ (offered []).entropy = [] := ⟨rfl, rfl, rfl⟩

/-- The constants of V-PEND-9(a): den2 is 0. -/
def degenerate : State := { State.reset with pend := { PendUnit.reset with l1 := 0x7F000000, l2 := 1 } }

/-- DerivsFollowTheEquations, and the first clause of PendDerivsEffect and PendAdvanceEffect. -/
theorem witness_Derivs_degenerate :
    den2 (terms degenerate.pend 0 0 0 0) ≤ 0 ∧ den2 (terms degenerate.pend 0 0 0 0) = 0
      ∧ derivs degenerate.pend degenerate.pend.th1 degenerate.pend.w1.toInt degenerate.pend.th2 degenerate.pend.w2.toInt = none := by
  decide +kernel

theorem witness_Derivs_passes : 0 < den1 (terms PendUnit.reset 0 0 0 0) ∧ 0 < den2 (terms PendUnit.reset 0 0 0 0) := by
  decide +kernel

/-- V-PEND-10(a): the derivatives fit. -/
theorem witness_PendDerivs_fits :
    let p := (swing 0xC0000000 0x7FFFFFFF 0xC0000000 0).pend
    ∃ d : Derivs, derivs p p.th1 p.w1.toInt p.th2 p.w2.toInt = some d ∧ (fitsS32 d.dw1 ∧ fitsS32 d.dw2) :=
  ⟨{ dth1 := 0x7FFFFFFF, dw1 := 0x09CCCCCD, dth2 := 0, dw2 := 0 }, by decide +kernel⟩

/-- V-PEND-11(a): a derivative does not fit. -/
theorem witness_PendDerivs_overflows :
    let p := (swing 0 0 0x40000000 0x64000000).pend
    ∃ d : Derivs, derivs p p.th1 p.w1.toInt p.th2 p.w2.toInt = some d ∧ ¬ (fitsS32 d.dw1 ∧ fitsS32 d.dw2) :=
  ⟨(currentDerivs (swing 0 0 0x40000000 0x64000000).pend).getD { dth1 := 0, dw1 := 0, dth2 := 0, dw2 := 0 },
    by decide +kernel⟩

/-- V-PEND-5: both new velocities fit. -/
theorem witness_PendAdvance_fits :
    let p := (swing 0x20000000 0 0 0).pend
    ∃ d : Derivs, derivs p p.th1 p.w1.toInt p.th2 p.w2.toInt = some d
      ∧ (fitsS32 (p.w1.toInt + qmul p.dt.toInt d.dw1) ∧ fitsS32 (p.w2.toInt + qmul p.dt.toInt d.dw2)) :=
  ⟨(currentDerivs (swing 0x20000000 0 0 0).pend).getD { dth1 := 0, dw1 := 0, dth2 := 0, dw2 := 0 }, by decide +kernel⟩

/-- V-PEND-10(b): the first new velocity does not fit. -/
theorem witness_PendAdvance_overflows :
    let p := (swing 0xC0000000 0x7FFFFFFF 0xC0000000 0).pend
    ∃ d : Derivs, derivs p p.th1 p.w1.toInt p.th2 p.w2.toInt = some d
      ∧ ¬ (fitsS32 (p.w1.toInt + qmul p.dt.toInt d.dw1) ∧ fitsS32 (p.w2.toInt + qmul p.dt.toInt d.dw2)) :=
  ⟨{ dth1 := 0x7FFFFFFF, dw1 := 0x09CCCCCD, dth2 := 0, dw2 := 0 }, by decide +kernel⟩

theorem witness_PendulumAtRest :
    (let s := swing 0 0 0 0
     s.pend.th1 = 0 ∧ s.pend.th2 = 0 ∧ s.pend.w1 = 0 ∧ s.pend.w2 = 0 ∧ derivs s.pend 0 0 0 0 ≠ none)
    ∧ (let s := swing 0x80000000 0 0x80000000 0
       s.pend.th1 = 0x80000000 ∧ s.pend.th2 = 0x80000000 ∧ s.pend.w1 = 0 ∧ s.pend.w2 = 0
        ∧ derivs s.pend 0x80000000 0 0x80000000 0 ≠ none) := by decide +kernel

end Sys2Proof.Tests
end

/-! ### Independence of the units (00_scope.md R2)

Replacing the units a command does not own commutes with every operation the command is made of, so it commutes with the
command (`exec_withForeign`): whatever stands in the other units, the command does the same and leaves them as they are. -/

namespace Sys2Proof.Machine

/-- The state with every unit but the owner's taken from `r`. -/
def State.withForeign (s : State) (o : Owner) (r : State) : State :=
  { s with
    ca := if o = .ca then s.ca else r.ca
    lfsr := if o = .lfsr then s.lfsr else r.lfsr
    sel := if o = .sel then s.sel else r.sel
    pend := if o = .pend then s.pend else r.pend }

/-- The answer with its next state, if it has one, changed by `f`. -/
def onNext (f : State → State) : Answer → Answer
  | .next t => .next (f t)
  | .fault q => .fault q
  | .refused q => .refused q

section
variable (o : Owner) (r s : State)

/-! What a command reads stays: the arguments, the entropy port and its own unit. -/

@[simp] theorem withForeign_x (i : Fin 5) : (s.withForeign o r).x i = s.x i := by fin_cases i <;> rfl
@[simp] theorem withForeign_entropy : (s.withForeign o r).entropy = s.entropy := rfl
@[simp] theorem withForeign_drawn : (s.withForeign o r).drawn = s.drawn := rfl
@[simp] theorem withForeign_ca_own : (s.withForeign .ca r).ca = s.ca := rfl
@[simp] theorem withForeign_lfsr_own : (s.withForeign .lfsr r).lfsr = s.lfsr := rfl
@[simp] theorem withForeign_sel_own : (s.withForeign .sel r).sel = s.sel := rfl
@[simp] theorem withForeign_pend_own : (s.withForeign .pend r).pend = s.pend := rfl

/-! A draw gives the same value and takes the same words. -/

theorem withEntropy_withForeign (ws : List Word) (d : Nat) :
    (s.withForeign o r).withEntropy ws d = (s.withEntropy ws d).withForeign o r := rfl

theorem takeWord_withForeign :
    takeWord (s.withForeign o r) = ((takeWord s).1, (takeWord s).2.withForeign o r) := by
  cases h : s.entropy with
  | nil => simp [takeWord, h, withEntropy_withForeign]
  | cons w ws => simp [takeWord, h, withEntropy_withForeign]

theorem drawBits_withForeign (n : Nat) :
    drawBits n (s.withForeign o r) = ((drawBits n s).1, (drawBits n s).2.withForeign o r) := by
  simp [drawBits, takeWord_withForeign]

theorem drawNonzero_withForeign (n : Nat) :
    drawNonzero n (s.withForeign o r) = ((drawNonzero n s).1, (drawNonzero n s).2.withForeign o r) := by
  cases h : firstNonzero n s.entropy with
  | none => simp [drawNonzero, h, withEntropy_withForeign]
  | some d => simp [drawNonzero, h, withEntropy_withForeign]

/-! The commands of each unit, by the branches of their meanings. -/

theorem exec_ca_withForeign (i : Instr) (hi : Owner.of i = .ca) :
    exec i (s.withForeign .ca r) = onNext (·.withForeign .ca r) (exec i s) := by
  cases i <;> simp only [Owner.of, reduceCtorEq] at hi
  case caInit len rule => simp only [exec, execCaInit]; split <;> rfl
  case caRandomize =>
    simp only [exec, execCaRandomize, withForeign_ca_own, drawBits_withForeign]; rfl
  all_goals rfl

theorem exec_lfsr_withForeign (i : Instr) (hi : Owner.of i = .lfsr) :
    exec i (s.withForeign .lfsr r) = onNext (·.withForeign .lfsr r) (exec i s) := by
  cases i <;> simp only [Owner.of, reduceCtorEq] at hi
  case lfsrInit n =>
    simp only [exec, execLfsrInit, withForeign_x]
    split
    · rfl
    · split
      · rfl
      · split <;> rfl
  case lfsrSetRule =>
    simp only [exec, execLfsrSetRule, withForeign_x, withForeign_lfsr_own]; split <;> rfl
  case lfsrRandomize =>
    simp only [exec, execLfsrRandomize, withForeign_lfsr_own, drawNonzero_withForeign]; rfl
  all_goals rfl

theorem exec_sel_withForeign (i : Instr) (hi : Owner.of i = .sel) :
    exec i (s.withForeign .sel r) = onNext (·.withForeign .sel r) (exec i s) := by
  cases i <;> simp only [Owner.of, reduceCtorEq] at hi
  case selChoose n k => simp only [exec, execSelChoose]; split <;> rfl
  case selCombination n k =>
    simp only [exec, execSelCombination, withForeign_x]
    split
    · rfl
    · split <;> rfl

theorem exec_pend_withForeign (i : Instr) (hi : Owner.of i = .pend) :
    exec i (s.withForeign .pend r) = onNext (·.withForeign .pend r) (exec i s) := by
  cases i <;> simp only [Owner.of, reduceCtorEq] at hi
  case pendInit =>
    simp only [exec, execPendInit, withForeign_x, withForeign_pend_own, drawBits_withForeign]; split <;> rfl
  case pendSetState => rfl
  case pendSetDt => simp only [exec, execPendSetDt, withForeign_x]; split <;> rfl
  case pendRandomize =>
    simp only [exec, execPendRandomize, withForeign_pend_own, drawBits_withForeign]; rfl
  case pendAdvance =>
    simp only [exec, execPendAdvance, withForeign_pend_own]
    cases currentDerivs s.pend with
    | none => rfl
    | some d => rw [apply_ite (onNext _)]; rfl
  case pendDerivs =>
    simp only [exec, execPendDerivs, withForeign_pend_own]
    cases currentDerivs s.pend with
    | none => rfl
    | some d => rw [apply_ite (onNext _)]; rfl

/-- R2 as one equation: a command commutes with replacing the units that are not its own. -/
theorem exec_withForeign (i : Instr) :
    exec i (s.withForeign (Owner.of i) r) = onNext (·.withForeign (Owner.of i) r) (exec i s) := by
  cases hi : Owner.of i with
  | system => cases i <;> simp only [Owner.of, reduceCtorEq] at hi; rfl
  | ca => exact exec_ca_withForeign r s i hi
  | lfsr => exact exec_lfsr_withForeign r s i hi
  | sel => exact exec_sel_withForeign r s i hi
  | pend => exact exec_pend_withForeign r s i hi

end

/-- No command writes a unit that is not its own (R2). -/
theorem exec_keeps_foreign (i : Instr) (s t : State) (h : exec i s = .next t) :
    (Owner.of i ≠ .ca → t.ca = s.ca) ∧ (Owner.of i ≠ .lfsr → t.lfsr = s.lfsr)
      ∧ (Owner.of i ≠ .sel → t.sel = s.sel) ∧ (Owner.of i ≠ .pend → t.pend = s.pend) := by
  rcases exec_cases i s with ⟨e, he, -⟩ | ⟨ca, lfsr, sel, pend, ws, d, he, hca, hlfsr, hsel, hpend, -⟩
  · obtain rfl : raise e s = t := Host.Outcome.next.inj (he.symm.trans h)
    simp
  · obtain rfl := Host.Outcome.next.inj (he.symm.trans h)
    exact ⟨hca, hlfsr, hsel, hpend⟩

/-- Settles O19: the frame is `exec_keeps_foreign`, and the end with other units in place is the old end with the same
units in place, by `exec_withForeign`. -/
theorem unitsAreIndependent : Obligations.UnitsAreIndependent := by
  unfold Obligations.UnitsAreIndependent
  refine ⟨exec_keeps_foreign, fun i s t ca lfsr sel pend h => ?_⟩
  let r : State := { s with ca := ca, lfsr := lfsr, sel := sel, pend := pend }
  have hexec : exec i (s.withForeign (Owner.of i) r) = .next (t.withForeign (Owner.of i) r) :=
    (exec_withForeign r s i).trans (congrArg _ h)
  exact ⟨_, hexec, rfl, rfl, rfl, rfl, fun hi => if_pos hi, fun hi => if_pos hi, fun hi => if_pos hi,
    fun hi => if_pos hi⟩

end Sys2Proof.Machine

/-! ### The state of the block (10_state.md): arguments, flags and the invariant of R59 -/

namespace Sys2Proof.Machine

/-! ### No command writes an argument register (R31) -/

/-- Settles O18: an error keeps every argument by `raise_arg0` to `raise_arg4`, and a command that ends OK writes only a
unit, STATUS and the entropy port (`exec_cases`). -/
theorem commandsKeepArguments : Obligations.CommandsKeepArguments := by
  unfold Obligations.CommandsKeepArguments
  intro i s t h
  rcases exec_cases i s with ⟨e, he, -⟩ | ⟨ca, lfsr, sel, pend, ws, d, he, -⟩
  · obtain rfl : raise e s = t := Host.Outcome.next.inj (he.symm.trans h)
    simp
  · obtain rfl := Host.Outcome.next.inj (he.symm.trans h)
    exact ⟨rfl, rfl, rfl, rfl, rfl⟩

/-! ### No command reads RESULT or ERRFLAGS (R57) -/

/-- The state with other values in STATUS and ERRFLAGS. -/
def State.withFlags (s : State) (status errflags : Word) : State :=
  { s with status := status, errflags := errflags }

/-- Both answers are next states, and they differ at most in ERRFLAGS. -/
def EndsAlike (o o' : Answer) : Prop :=
  ∃ (t : State) (f : Word), o = .next t ∧ o' = .next { t with errflags := f }

theorem endsAlike_ite (c : Prop) [Decidable c] {o₁ o₁' o₂ o₂' : Answer} (h₁ : EndsAlike o₁ o₁')
    (h₂ : EndsAlike o₂ o₂') : EndsAlike (if c then o₁ else o₂) (if c then o₁' else o₂') := by
  split
  · exact h₁
  · exact h₂

section
variable (s : State) (a b : Word)

theorem endsAlike_finish : EndsAlike (.next (finish s)) (.next (finish (s.withFlags a b))) :=
  ⟨finish s, b, rfl, rfl⟩

theorem endsAlike_raise (e : ErrorCode) : EndsAlike (.next (raise e s)) (.next (raise e (s.withFlags a b))) :=
  ⟨raise e s, setFlag b e, rfl, rfl⟩

/-! What a command reads stays: the arguments, the units and the entropy port. -/

@[simp] theorem withFlags_x (i : Fin 5) : (s.withFlags a b).x i = s.x i := by fin_cases i <;> rfl
@[simp] theorem withFlags_ca : (s.withFlags a b).ca = s.ca := rfl
@[simp] theorem withFlags_lfsr : (s.withFlags a b).lfsr = s.lfsr := rfl
@[simp] theorem withFlags_pend : (s.withFlags a b).pend = s.pend := rfl
@[simp] theorem withFlags_entropy : (s.withFlags a b).entropy = s.entropy := rfl
@[simp] theorem withFlags_drawn : (s.withFlags a b).drawn = s.drawn := rfl

theorem withEntropy_withFlags (ws : List Word) (d : Nat) :
    (s.withFlags a b).withEntropy ws d = (s.withEntropy ws d).withFlags a b := rfl

theorem takeWord_withFlags : takeWord (s.withFlags a b) = ((takeWord s).1, (takeWord s).2.withFlags a b) := by
  cases h : s.entropy with
  | nil => simp [takeWord, h, withEntropy_withFlags]
  | cons w ws => simp [takeWord, h, withEntropy_withFlags]

theorem drawBits_withFlags (n : Nat) :
    drawBits n (s.withFlags a b) = ((drawBits n s).1, (drawBits n s).2.withFlags a b) := by
  simp [drawBits, takeWord_withFlags]

theorem drawNonzero_withFlags (n : Nat) :
    drawNonzero n (s.withFlags a b) = ((drawNonzero n s).1, (drawNonzero n s).2.withFlags a b) := by
  cases h : firstNonzero n s.entropy with
  | none => simp [drawNonzero, h, withEntropy_withFlags]
  | some d => simp [drawNonzero, h, withEntropy_withFlags]

/-- R57 for one command: each of its checks takes the same branch, and each branch is a `raise` or a `finish`. -/
theorem exec_withFlags (i : Instr) : EndsAlike (exec i s) (exec i (s.withFlags a b)) := by
  cases i
  case nop => exact endsAlike_finish s a b
  case caInit len rule =>
    exact endsAlike_ite _ (endsAlike_raise s a b _) (endsAlike_finish (s.withCa _) a b)
  case caSetRule rule => exact endsAlike_finish (s.withCa _) a b
  case caSetState => exact endsAlike_finish (s.withCa _) a b
  case caRandomize =>
    simp only [exec, execCaRandomize, withFlags_ca, drawBits_withFlags]
    exact endsAlike_finish (State.withCa _ _) a b
  case caResetState => exact endsAlike_finish (s.withCa _) a b
  case caAdvance => exact endsAlike_finish (s.withCa _) a b
  case lfsrInit n =>
    simp only [exec, execLfsrInit, withFlags_x]
    refine endsAlike_ite _ (endsAlike_raise s a b _) (endsAlike_ite _ (endsAlike_raise s a b _) ?_)
    cases checkRule (s.x 1).toNat n with
    | none => exact endsAlike_finish (s.withLfsr _) a b
    | some e => exact endsAlike_raise s a b e
  case lfsrSetRule =>
    simp only [exec, execLfsrSetRule, withFlags_x, withFlags_lfsr]
    cases checkRule (s.x 0).toNat s.lfsr.nbits with
    | none => exact endsAlike_finish (s.withLfsr _) a b
    | some e => exact endsAlike_raise s a b e
  case lfsrSetState => exact endsAlike_finish (s.withLfsr _) a b
  case lfsrRandomize =>
    simp only [exec, execLfsrRandomize, withFlags_lfsr, drawNonzero_withFlags]
    exact endsAlike_finish (State.withLfsr _ _) a b
  case lfsrResetState => exact endsAlike_finish (s.withLfsr _) a b
  case lfsrAdvance => exact endsAlike_finish (s.withLfsr _) a b
  case selChoose n k =>
    exact endsAlike_ite _ (endsAlike_raise s a b _) (endsAlike_finish (s.withSel _) a b)
  case selCombination n k =>
    exact endsAlike_ite _ (endsAlike_raise s a b _)
      (endsAlike_ite _ (endsAlike_raise s a b _) (endsAlike_finish (s.withSel _) a b))
  case pendInit =>
    simp only [exec, execPendInit, withFlags_x, withFlags_pend, drawBits_withFlags]
    exact endsAlike_ite _ (endsAlike_raise s a b _) (endsAlike_finish (State.withPend _ _) a b)
  case pendSetState => exact endsAlike_finish (s.withPend _) a b
  case pendSetDt =>
    exact endsAlike_ite _ (endsAlike_raise s a b _) (endsAlike_finish (s.withPend _) a b)
  case pendRandomize =>
    simp only [exec, execPendRandomize, withFlags_pend, drawBits_withFlags]
    exact endsAlike_finish (State.withPend _ _) a b
  case pendAdvance =>
    simp only [exec, execPendAdvance, withFlags_pend]
    cases currentDerivs s.pend with
    | none => exact endsAlike_raise s a b _
    | some d => exact endsAlike_ite _ (endsAlike_raise s a b _) (endsAlike_finish (s.withPend _) a b)
  case pendDerivs =>
    simp only [exec, execPendDerivs, withFlags_pend]
    cases currentDerivs s.pend with
    | none => exact endsAlike_raise s a b _
    | some d => exact endsAlike_ite _ (endsAlike_raise s a b _) (endsAlike_finish (s.withPend _) a b)

end

/-- Settles O20, by `exec_withFlags`. -/
theorem statusIsNeverRead : Obligations.StatusIsNeverRead := by
  unfold Obligations.StatusIsNeverRead
  intro i s t status errflags h
  obtain ⟨u, f, hu, hf⟩ := exec_withFlags s status errflags i
  obtain rfl : u = t := Host.Outcome.next.inj (hu.symm.trans h)
  exact ⟨f, hf⟩

/-! ### The invariant at reset (R59, R340) -/

/-- Settles O9, unit by unit: the four units after reset are fixed values. -/
theorem resetHasInvariant : Obligations.ResetHasInvariant := by
  have hca : CaUnit.reset.Inv := by decide
  have hlfsr : LfsrUnit.reset.Inv := by decide
  have hsel : SelUnit.reset.Inv := by decide
  have hpend : PendUnit.reset.Inv := by decide
  exact ⟨by decide, by decide, hca, hlfsr, hsel, hpend⟩

/-- The registers after a reset are those right after power-up, so the invariant holds whatever stood there before. -/
theorem resetBlock_inv (s : State) : (resetBlock s).Inv := resetHasInvariant

/-! ### What an answer leads to -/

/-- The answer is a next state that has P. -/
def NextHas (P : State → Prop) : Answer → Prop
  | .next t => P t
  | .fault _ => False
  | .refused _ => False

theorem NextHas.of_eq_next {P : State → Prop} {o : Answer} {t : State} (h : NextHas P o) (ht : o = .next t) : P t := by
  rwa [ht] at h

theorem nextHas_ite {P : State → Prop} (c : Prop) [Decidable c] {o₁ o₂ : Answer} (h₁ : c → NextHas P o₁)
    (h₂ : ¬ c → NextHas P o₂) : NextHas P (if c then o₁ else o₂) := by
  split
  · exact h₁ ‹_›
  · exact h₂ ‹_›

theorem nextHas_respondAfter (r : Response) (o : Answer) (h : NextHas State.Inv o) :
    NextHas State.Inv (respondAfter r o) := by
  cases o with
  | next t => exact h
  | fault f => exact h
  | refused q => exact h

/-! ### STATUS and ERRFLAGS (R33, R34) -/

/-- The STATUS and ERRFLAGS clauses of the invariant. -/
def FlagsInv (s : State) : Prop := s.status.toNat ≤ 6 ∧ s.errflags &&& 0xFFFFFF81 = 0

theorem finish_flagsInv (s : State) (h : FlagsInv s) : FlagsInv (finish s) :=
  ⟨Nat.zero_le 6, h.2⟩

/-- An error code is 1 to 6, and its flag is none of the reserved bits. -/
theorem raise_flagsInv (e : ErrorCode) (s : State) (h : FlagsInv s) : FlagsInv (raise e s) := by
  have hcode : (statusWord e.code).toNat ≤ 6 := by cases e <;> decide
  have hflag : e.flag &&& 0xFFFFFF81 = 0 := by cases e <;> decide
  exact ⟨hcode, Laws.EncodingRow.or_masked _ _ _ h.2 hflag⟩

/-- Clearing bits sets no reserved bit. -/
theorem clearFlags_reserved (f w : Word) (h : f &&& 0xFFFFFF81 = 0) : clearFlags f w &&& 0xFFFFFF81 = 0 := by
  rw [clearFlags, BitVec.and_assoc, BitVec.and_comm (~~~w), ← BitVec.and_assoc, h]
  exact BitVec.zero_and

theorem exec_flagsInv (i : Instr) (s : State) (h : FlagsInv s) : NextHas FlagsInv (exec i s) := by
  rcases exec_cases i s with ⟨e, he, -⟩ | ⟨ca, lfsr, sel, pend, ws, d, he, -⟩
  · rw [he]; exact raise_flagsInv e s h
  · rw [he]; exact finish_flagsInv s h

/-! ### The CA unit (R36, R37) -/

theorem caUnit_inv_withState {c : CaUnit} (h : c.Inv) {v : Word} (hv : v.toNat < 2 ^ c.len) :
    CaUnit.Inv { c with state := v } := by
  obtain ⟨hlo, hhi, -, hcfg⟩ := h
  exact ⟨hlo, hhi, hv, hcfg⟩

theorem caUnit_inv_withCfg {v : Word} {len : Nat} (rule : Nat) (hlo : 3 ≤ len) (hhi : len ≤ 32)
    (hv : v.toNat < 2 ^ len) : CaUnit.Inv { state := v, cfg := caCfgWord len rule } := by
  have hlen : len % 64 = len := Nat.mod_eq_of_lt (by omega)
  refine ⟨?_, ?_, ?_, ?_⟩ <;> simp only [caCfgWord_len, caCfgWord_rule, hlen]
  · exact hlo
  · exact hhi
  · exact hv
  · simp [caCfgWord]

theorem caNext_lt (v : Word) (len rule : Nat) : (caNext v len rule).toNat < 2 ^ len := by
  rw [caNext, BitVec.toNat_ofNat]
  exact lt_of_le_of_lt (Nat.mod_le _ _) (caNextBelow_testBit v len rule len 0).2

theorem exec_caInv (i : Instr) (s : State) (hi : Owner.of i = .ca) (h : s.ca.Inv) :
    NextHas (·.ca.Inv) (exec i s) := by
  cases i <;> simp only [Owner.of, reduceCtorEq] at hi
  case caInit len rule =>
    refine nextHas_ite _ (fun _ => h) fun hlen => ?_
    have hhi : ¬ 32 < len := fun hc => hlen (.inr hc)
    exact caUnit_inv_withCfg rule (by omega) (by omega) (by simp)
  case caSetRule rule =>
    obtain ⟨hlo, hhi, hv, -⟩ := h
    exact caUnit_inv_withCfg rule hlo hhi hv
  case caSetState => exact caUnit_inv_withState h (lowBits_lt _ _)
  case caRandomize => exact caUnit_inv_withState h (lowBits_lt _ _)
  case caResetState => exact caUnit_inv_withState h (by simp)
  case caAdvance => exact caUnit_inv_withState h (caNext_lt _ _ _)

/-! ### The LFSR unit (R39 to R43) -/

/-- What CHECK_RULE accepts (R170) is what the invariant says of a rule. -/
theorem of_checkRule_eq_none {rule n : Nat} (h : checkRule rule n = none) :
    1 ≤ rule ∧ rule ≤ 2 ^ (n - 1) ∧ ∀ t ∈ taps rule, t ≤ n - 1 := by
  unfold checkRule at h
  split at h
  · cases h
  · rename_i hrange
    split at h
    · cases h
    · rename_i htaps
      simp only [List.any_eq_true, decide_eq_true_eq, not_exists, not_and, not_lt] at htaps
      exact ⟨by omega, by omega, htaps⟩

/-- A state shifted down leaves bit n - 1 to the feedback bit, so the next state fits in n bits (R177). -/
theorem lfsrNext_lt {v : Word} {n : Nat} (rule : Nat) (hn : 1 ≤ n) (hv : v.toNat < 2 ^ n) :
    (lfsrNext v n rule).toNat < 2 ^ n := by
  have hpow : 2 ^ n = 2 * 2 ^ (n - 1) := by rw [← pow_succ', Nat.sub_add_cancel hn]
  have hfeed : (feedback v (taps rule)).toNat ≤ 1 := by
    rw [feedback, BitVec.toNat_and]; exact Nat.and_le_right
  rw [lfsrNext, BitVec.toNat_or]
  refine Nat.or_lt_two_pow ?_ ?_
  · rw [BitVec.toNat_ushiftRight, Nat.shiftRight_eq_div_pow]
    exact lt_of_le_of_lt (Nat.div_le_self _ _) hv
  · rw [BitVec.toNat_shiftLeft, Nat.shiftLeft_eq]
    calc _ ≤ (feedback v (taps rule)).toNat * 2 ^ (n - 1) := Nat.mod_le _ _
      _ ≤ 1 * 2 ^ (n - 1) := Nat.mul_le_mul_right _ hfeed
      _ < 2 ^ n := by rw [hpow]; have := Nat.two_pow_pos (n - 1); omega

theorem lfsrUnit_inv_withState {l : LfsrUnit} (h : l.Inv) {v saved : Word} (hv : v.toNat < 2 ^ l.nbits)
    (hsaved : saved.toNat < 2 ^ l.nbits) : LfsrUnit.Inv { l with state := v, saved := saved } := by
  obtain ⟨hlo, hhi, hcfg, -, -, hrule⟩ := h
  exact ⟨hlo, hhi, hcfg, hv, hsaved, hrule⟩

theorem lfsrUnit_inv_withRule {l : LfsrUnit} (h : l.Inv) {rule : Word} (hrule : checkRule rule.toNat l.nbits = none) :
    LfsrUnit.Inv { l with rule := rule, taps := tapMask rule.toNat } := by
  obtain ⟨hlo, hhi, hcfg, hv, hsaved, -⟩ := h
  obtain ⟨hpos, hle, htaps⟩ := of_checkRule_eq_none hrule
  exact ⟨hlo, hhi, hcfg, hv, hsaved, hpos, hle, rfl, htaps⟩

@[simp] theorem lfsrCfgWord_nbits (v rule taps saved : Word) (n : Nat) :
    LfsrUnit.nbits { state := v, cfg := lfsrCfgWord n, rule := rule, taps := taps, saved := saved } = n % 64 := by
  simp only [LfsrUnit.nbits, bits, lfsrCfgWord_toNat]; omega

theorem lfsrUnit_inv_init {init rule : Word} {n : Nat} (hlo : 2 ≤ n) (hhi : n ≤ 32) (hinit : init.toNat < 2 ^ n)
    (hrule : checkRule rule.toNat n = none) :
    LfsrUnit.Inv { state := init, cfg := lfsrCfgWord n, rule := rule, taps := tapMask rule.toNat, saved := init } := by
  have hn : n % 64 = n := Nat.mod_eq_of_lt (by omega)
  obtain ⟨hpos, hle, htaps⟩ := of_checkRule_eq_none hrule
  simp only [LfsrUnit.Inv, lfsrCfgWord_nbits, hn]
  exact ⟨hlo, hhi, trivial, hinit, hinit, hpos, hle, trivial, htaps⟩

theorem exec_lfsrInv (i : Instr) (s : State) (hi : Owner.of i = .lfsr) (h : s.lfsr.Inv) :
    NextHas (·.lfsr.Inv) (exec i s) := by
  have ⟨hlo, hhi, _, hstate, hsaved, _⟩ := h
  cases i <;> simp only [Owner.of, reduceCtorEq] at hi
  case lfsrInit n =>
    refine nextHas_ite _ (fun _ => h) fun hn => nextHas_ite _ (fun _ => h) fun hinit => ?_
    have hn32 : ¬ 32 < n := fun hc => hn (.inr hc)
    cases hrule : checkRule (s.x 1).toNat n with
    | none => exact lfsrUnit_inv_init (by omega) (by omega) (by omega) hrule
    | some e => exact h
  case lfsrSetRule =>
    simp only [exec, execLfsrSetRule]
    cases hrule : checkRule (s.x 0).toNat s.lfsr.nbits with
    | none => exact lfsrUnit_inv_withRule h hrule
    | some e => exact h
  case lfsrSetState => exact lfsrUnit_inv_withState h (lowBits_lt _ _) (lowBits_lt _ _)
  case lfsrRandomize =>
    obtain ⟨v, ws, d, hdraw, -, hv⟩ := drawNonzero_eq_withEntropy s.lfsr.nbits s (by omega) hhi
    simp only [exec, execLfsrRandomize, hdraw]
    exact lfsrUnit_inv_withState h hv hsaved
  case lfsrResetState => exact lfsrUnit_inv_withState h hsaved hsaved
  case lfsrAdvance => exact lfsrUnit_inv_withState h (lfsrNext_lt _ (by omega) hstate) hsaved

/-! ### The SEL unit (R45 to R48) -/

/-- There is no k-subset of fewer than k elements: the factor n - n of the product rule is 0. -/
theorem binomial_eq_zero_of_lt {n k : Nat} (h : n < k) : binomial n k = 0 := by
  induction k with
  | zero => omega
  | succ k ih =>
    rcases Nat.lt_or_ge n k with hk | hk
    · simp [binomial, ih hk]
    · simp [binomial, Nat.sub_eq_zero_of_le (by omega : n ≤ k)]

@[simp] theorem selResult_n (u : SelUnit) (n k : Nat) (m : Word) (idx : List Nat) :
    (selResult u n k m idx).n = n % 64 := by
  simp only [SelUnit.n, selResult, bits, selCfgWord_toNat]; omega

@[simp] theorem selResult_k (u : SelUnit) (n k : Nat) (m : Word) (idx : List Nat) :
    (selResult u n k m idx).k = k % 64 := by
  simp only [SelUnit.k, selResult, bits, selCfgWord_toNat]; omega

/-- The registers SEL_COMBINATION leaves hold one combination; k ≤ n since m lies below `choose(n, k)`. -/
theorem selUnit_inv_selResult (u : SelUnit) {n k : Nat} {m : Word} (hn : n ≤ 32) (hk : k ≤ 32)
    (hm : m.toNat < binomial n k) : (selResult u n k m (combination n k m.toNat)).Inv := by
  have hkn : k ≤ n := by
    by_contra hlt
    rw [binomial_eq_zero_of_lt (Nat.lt_of_not_le hlt)] at hm
    exact Nat.not_lt_zero _ hm
  have hn64 : n % 64 = n := Nat.mod_eq_of_lt (by omega)
  have hk64 : k % 64 = k := Nat.mod_eq_of_lt (by omega)
  simp only [SelUnit.Inv, selResult_n, selResult_k, hn64, hk64]
  exact ⟨hkn, hn, rfl, hm, rfl⟩

/-- SEL_CHOOSE is no part of the held combination (R44). -/
theorem selUnit_inv_withChoose {u : SelUnit} (h : u.Inv) (v : Word) : SelUnit.Inv { u with choose := v } := by
  obtain ⟨hkn, hn, hcfg, hm, hheld⟩ := h
  exact ⟨hkn, hn, hcfg, hm, congrArg (fun w : SelUnit => { w with choose := v }) hheld⟩

theorem exec_selInv (i : Instr) (s : State) (hi : Owner.of i = .sel) (h : s.sel.Inv) :
    NextHas (·.sel.Inv) (exec i s) := by
  cases i <;> simp only [Owner.of, reduceCtorEq] at hi
  case selChoose n k => exact nextHas_ite _ (fun _ => h) fun _ => selUnit_inv_withChoose h _
  case selCombination n k =>
    refine nextHas_ite _ (fun _ => h) fun hnk => nextHas_ite _ (fun _ => h) fun hm => ?_
    obtain ⟨hn, hk⟩ := not_or.mp hnk
    exact selUnit_inv_selResult s.sel (Nat.le_of_not_lt hn) (Nat.le_of_not_lt hk) (Nat.lt_of_not_le hm)

/-! ### The PEND unit (R51, R52) -/

/-- The constants are written by PEND_INIT and PEND_SET_DT alone, and both refuse a value that is not positive. -/
theorem exec_pendInv (i : Instr) (s : State) (hi : Owner.of i = .pend) (h : s.pend.Inv) :
    NextHas (·.pend.Inv) (exec i s) := by
  cases i <;> simp only [Owner.of, reduceCtorEq] at hi
  case pendInit =>
    refine nextHas_ite _ (fun _ => h) fun hpos => ?_
    simp only [not_or, not_le] at hpos
    exact hpos
  case pendSetState => exact h
  case pendSetDt =>
    have ⟨hl1, hl2, hm1, hm2, _⟩ := h
    exact nextHas_ite _ (fun _ => h) fun hdt => ⟨hl1, hl2, hm1, hm2, not_le.mp hdt⟩
  case pendRandomize => exact h
  case pendAdvance =>
    simp only [exec, execPendAdvance]
    cases currentDerivs s.pend with
    | none => exact h
    | some d => exact nextHas_ite _ (fun _ => h) fun _ => h
  case pendDerivs =>
    simp only [exec, execPendDerivs]
    cases currentDerivs s.pend with
    | none => exact h
    | some d => exact nextHas_ite _ (fun _ => h) fun _ => h

/-! ### Commands, the bus and the step -/

/-- A property of one unit holds after a command when the unit's own commands keep it: the others keep the unit (R2). -/
theorem unit_has_of_own {α : Type} (unit : State → α) (P : α → Prop) {i : Instr} {o : Owner} {s t : State}
    (ht : exec i s = .next t) (keeps : Owner.of i ≠ o → unit t = unit s)
    (own : Owner.of i = o → NextHas (fun u => P (unit u)) (exec i s)) (h : P (unit s)) : P (unit t) := by
  by_cases ho : Owner.of i = o
  · exact (own ho).of_eq_next ht
  · rwa [keeps ho]

theorem exec_inv (i : Instr) (s : State) (h : s.Inv) : NextHas State.Inv (exec i s) := by
  obtain ⟨hstatus, herrflags, hca, hlfsr, hsel, hpend⟩ := h
  obtain ⟨t, ht⟩ := exec_eq_next i s
  obtain ⟨keepsCa, keepsLfsr, keepsSel, keepsPend⟩ := exec_keeps_foreign i s t ht
  obtain ⟨hstatus', herrflags'⟩ := (exec_flagsInv i s ⟨hstatus, herrflags⟩).of_eq_next ht
  rw [ht]
  exact ⟨hstatus', herrflags',
    unit_has_of_own State.ca CaUnit.Inv ht keepsCa (exec_caInv i s · hca) hca,
    unit_has_of_own State.lfsr LfsrUnit.Inv ht keepsLfsr (exec_lfsrInv i s · hlfsr) hlfsr,
    unit_has_of_own State.sel SelUnit.Inv ht keepsSel (exec_selInv i s · hsel) hsel,
    unit_has_of_own State.pend PendUnit.Inv ht keepsPend (exec_pendInv i s · hpend) hpend⟩

theorem execute_inv (w : Word) (s : State) (h : s.Inv) : NextHas State.Inv (execute w s) := by
  cases hw : decode w with
  | ok i => rw [execute_ok w i s hw]; exact exec_inv i s h
  | error e =>
    obtain ⟨hstatus, herrflags, hunits⟩ := h
    obtain ⟨hstatus', herrflags'⟩ := raise_flagsInv .illegalCommand s ⟨hstatus, herrflags⟩
    rw [execute_error w e s hw]
    exact ⟨hstatus', herrflags', hunits⟩

/-- A host write reaches the invariant only through CMD and ERRFLAGS (R83, R87). -/
theorem writeReg_inv (r : Reg) (v : Word) (s : State) (h : s.Inv) : NextHas State.Inv (writeReg r v s) := by
  cases r
  case cmd => exact execute_inv v s h
  case errflags =>
    obtain ⟨hstatus, herrflags, hunits⟩ := h
    exact ⟨hstatus, clearFlags_reserved _ v herrflags, hunits⟩
  all_goals exact h

theorem writeWindow_inv (off : BitVec 8) (v : Word) (s : State) (h : s.Inv) :
    NextHas State.Inv (writeWindow off v s) := by
  unfold writeWindow
  split
  · exact writeReg_inv _ v s h
  · exact h

theorem serve_inv (a : Access) (s : State) (h : s.Inv) : NextHas State.Inv (serve a s) := by
  cases ha : a.admitted
  · rw [serve_refused a s ha]; exact h
  · cases hw : a.write
    · rw [serve_read a s ha hw]; exact h
    · rw [serve_write a s ha hw]
      exact nextHas_respondAfter _ _ (writeWindow_inv a.off a.data s h)

theorem handle_inv (e : Event) (s : State) (h : s.Inv) : NextHas State.Inv (handle e s) := by
  cases e with
  | access a => exact serve_inv a s h
  | reset => exact resetBlock_inv s
  | resetDuring w taken => exact resetBlock_inv (takeWords (min taken (wordsOf w s)) s)

/-- Settles O10: an idle step keeps the state, and any other step is `handle` on the state that has consumed the event,
whose registers are the same. -/
theorem stepKeepsInvariant : Obligations.StepKeepsInvariant := by
  unfold Obligations.StepKeepsInvariant
  intro s t hs ht
  have hnext : NextHas State.Inv (step s) := by
    cases he : s.events with
    | nil => rw [step_idle s he]; exact hs
    | cons e es => rw [step_event s e es he]; exact handle_inv e _ hs
  exact hnext.of_eq_next ht

end Sys2Proof.Machine

/-! ### The register window and the bus port (20_memory.md R82 to R98) -/

namespace Sys2Proof.Machine

/-! ### Offsets and registers (R56, R83) -/

/-- The register map has no second entry: a register is found at its own offset and nowhere else. -/
theorem ofOffset?_eq_some {n : Nat} {r : Reg} : Reg.ofOffset? n = some r ↔ r.offset = n := by
  constructor
  · intro h
    unfold Reg.ofOffset? at h
    split at h <;> cases h <;> rfl
  · rintro rfl
    exact ofOffset?_offset r

/-- Outside CMD, ERRFLAGS and the five arguments every register is read-only. -/
theorem attr_readOnly_of_offset {r : Reg} (h : r.offset ∉ [0x00, 0x08, 0x10, 0x14, 0x18, 0x1C, 0x20]) :
    r.attr = .readOnly := by
  revert h
  cases r <;> decide

section
variable {off : BitVec 8}

theorem readWindow_listed (s : State) {r : Reg} (h : Reg.ofOffset? off.toNat = some r) :
    readWindow s off = readReg s r := by
  simp [readWindow, h]

theorem readWindow_unlisted (s : State) (h : Reg.ofOffset? off.toNat = none) : readWindow s off = 0 := by
  simp [readWindow, h]

theorem writeWindow_listed (v : Word) (s : State) {r : Reg} (h : Reg.ofOffset? off.toNat = some r) :
    writeWindow off v s = writeReg r v s := by
  simp [writeWindow, h]

theorem writeWindow_unlisted (v : Word) (s : State) (h : Reg.ofOffset? off.toNat = none) :
    writeWindow off v s = .next s := by
  simp [writeWindow, h]

/-- A write outside CMD, ERRFLAGS and the arguments is ignored, whether a read-only register stands there or none. -/
theorem writeWindow_ignored (v : Word) (s : State)
    (h : off.toNat ∉ [0x00, 0x08, 0x10, 0x14, 0x18, 0x1C, 0x20]) : writeWindow off v s = .next s := by
  cases hr : Reg.ofOffset? off.toNat with
  | none => exact writeWindow_unlisted v s hr
  | some r =>
    rw [← ofOffset?_eq_some.mp hr] at h
    rw [writeWindow_listed v s hr, writeReg_readOnly r v s (attr_readOnly_of_offset h)]

end

/-- ERRFLAGS after a host write, bit by bit (R34). -/
theorem clearFlags_getLsbD (flags v : Word) (i : Nat) :
    (clearFlags flags v).getLsbD i = (flags.getLsbD i && !v.getLsbD i) := by
  rw [clearFlags, BitVec.getLsbD_and, BitVec.getLsbD_not]
  by_cases hi : i < 32
  · simp [hi]
  · simp [BitVec.getLsbD_of_ge flags i (by omega)]

/-! ### The step that serves an access (R82, R84) -/

theorem admitted_iff (a : Access) : a.admitted = true ↔ a.be = 0xF ∧ a.off.toNat % 4 = 0 := by
  simp [Access.admitted]

section
variable {s : State} {es : List Event}

theorem step_access {a : Access} (h : s.events = .access a :: es) : step s = serve a { s with events := es } :=
  step_event s (.access a) es h

theorem step_admittedRead {off : BitVec 8} {d : Word}
    (h : s.events = .access { write := false, off := off, be := 0xF, data := d } :: es) (hoff : off.toNat % 4 = 0) :
    step s = .next (respond (.readOk (readWindow { s with events := es } off)) { s with events := es }) := by
  rw [step_access h, serve_read _ _ ((admitted_iff _).mpr ⟨rfl, hoff⟩) rfl]

theorem step_admittedWrite {off : BitVec 8} {v : Word}
    (h : s.events = .access { write := true, off := off, be := 0xF, data := v } :: es) (hoff : off.toNat % 4 = 0) :
    step s = respondAfter .writeOk (writeWindow off v { s with events := es }) := by
  rw [step_access h, serve_write _ _ ((admitted_iff _).mpr ⟨rfl, hoff⟩) rfl]

/-- At a listed offset the write is the register's own (every offset of R56 is aligned). -/
theorem step_writeReg {off : BitVec 8} {v : Word} (r : Reg)
    (h : s.events = .access { write := true, off := off, be := 0xF, data := v } :: es) (hr : r.offset = off.toNat) :
    step s = respondAfter .writeOk (writeReg r v { s with events := es }) := by
  rw [step_admittedWrite h (hr ▸ offset_mod_four r), writeWindow_listed v _ (ofOffset?_eq_some.mpr hr)]

end

/-! ### What serving an access leaves at the port (R88) -/

theorem execute_events {w : Word} {s t : State} (h : execute w s = .next t) :
    t.events = s.events ∧ t.responses = s.responses := by
  cases hw : decode w with
  | ok i => exact exec_events i s t (execute_ok w i s hw ▸ h)
  | error e =>
    obtain rfl := Host.Outcome.next.inj ((execute_error w e s hw).symm.trans h)
    exact ⟨raise_events _ s, raise_responses _ s⟩

theorem writeReg_events {r : Reg} {v : Word} {s t : State} (h : writeReg r v s = .next t) :
    t.events = s.events ∧ t.responses = s.responses := by
  cases r
  case cmd => exact execute_events h
  all_goals
    cases h
    exact ⟨rfl, rfl⟩

theorem writeWindow_events {off : BitVec 8} {v : Word} {s t : State} (h : writeWindow off v s = .next t) :
    t.events = s.events ∧ t.responses = s.responses := by
  cases hr : Reg.ofOffset? off.toNat with
  | none =>
    obtain rfl := Host.Outcome.next.inj ((writeWindow_unlisted v s hr).symm.trans h)
    exact ⟨rfl, rfl⟩
  | some r => exact writeReg_events (writeWindow_listed v s hr ▸ h)

/-- An access served is one response more, and no event less than the one the step has taken. -/
theorem serve_responds {a : Access} {s t : State} (h : serve a s = .next t) :
    t.events = s.events ∧ ∃ r : Response, t.responses = s.responses ++ [r] := by
  cases ha : a.admitted
  · obtain rfl := Host.Outcome.next.inj ((serve_refused a s ha).symm.trans h)
    exact ⟨rfl, _, rfl⟩
  · cases hw : a.write
    · obtain rfl := Host.Outcome.next.inj ((serve_read a s ha hw).symm.trans h)
      exact ⟨rfl, _, rfl⟩
    · rw [serve_write a s ha hw] at h
      obtain ⟨u, hu, rfl⟩ := (respondAfter_eq_next _ _ _).mp h
      obtain ⟨hevents, hresponses⟩ := writeWindow_events hu
      exact ⟨hevents, .writeOk, by rw [respond_responses, hresponses]⟩

/-- Settles O7: the step serves the access on the state that has consumed it, and `serve_responds` says what that
leaves. -/
theorem stepServesAccessesInOrder : Obligations.StepServesAccessesInOrder := by
  unfold Obligations.StepServesAccessesInOrder
  intro a s t es hs ht
  exact serve_responds ((step_access hs).symm.trans ht)

/-- Settles O13, by what stands at the offset: where it is a register, the statement's list names the same one, and
where there is none, the list names none either. -/
theorem admittedReadReturnsRegister : Obligations.AdmittedReadReturnsRegister := by
  unfold Obligations.AdmittedReadReturnsRegister
  intro off d s es hs hoff
  rw [step_admittedRead hs hoff]
  cases hr : Reg.ofOffset? off.toNat with
  | some r =>
    rw [readWindow_listed _ hr, ← ofOffset?_eq_some.mp hr]
    cases r <;> rfl
  | none =>
    rw [readWindow_unlisted _ hr]
    generalize off.toNat = n at hr
    -- 46 rows of the statement's list contradict `hr`; its last row is the unlisted offsets.
    split
    case h_47 => rfl
    all_goals cases hr

/-- Settles O14, clause by clause: a register's own offset by `step_writeReg`, all other offsets by
`writeWindow_ignored`. -/
theorem admittedWriteEffects : Obligations.AdmittedWriteEffects := by
  unfold Obligations.AdmittedWriteEffects
  intro off v s es hs
  refine ⟨?arg0, ?arg1, ?arg2, ?arg3, ?arg4, ?errflags, ?ignored⟩
  case arg0 => rintro rfl; exact step_writeReg .arg0 hs rfl
  case arg1 => rintro rfl; exact step_writeReg .arg1 hs rfl
  case arg2 => rintro rfl; exact step_writeReg .arg2 hs rfl
  case arg3 => rintro rfl; exact step_writeReg .arg3 hs rfl
  case arg4 => rintro rfl; exact step_writeReg .arg4 hs rfl
  case errflags =>
    rintro rfl
    exact ⟨_, step_writeReg .errflags hs rfl, clearFlags_getLsbD s.errflags v⟩
  case ignored =>
    intro hoff hmem
    rw [step_admittedWrite hs hoff, writeWindow_ignored v _ hmem]
    rfl

/-- Settles O15: such an access is not admitted, and `serve_refused` gives the whole next state. -/
theorem refusedAccessChangesNothing : Obligations.RefusedAccessChangesNothing := by
  unfold Obligations.RefusedAccessChangesNothing
  intro a s es hs hrefused
  have hadmitted : a.admitted = false := by
    rw [← Bool.not_eq_true, admitted_iff, not_and_or]
    exact hrefused
  rw [step_access hs, serve_refused _ _ hadmitted]
  rfl

/-! ### Entropy (R98) -/

/-- Settles O21: an error takes no word, and a command that ends OK without drawing keeps both entropy fields
(`exec_cases`). -/
theorem onlyDrawingCommandsTakeEntropy : Obligations.OnlyDrawingCommandsTakeEntropy := by
  unfold Obligations.OnlyDrawingCommandsTakeEntropy
  intro i s t h hdraws
  rcases exec_cases i s with ⟨e, he, -⟩ | ⟨ca, lfsr, sel, pend, ws, d, he, -, -, -, -, hentropy⟩
  · obtain rfl := Host.Outcome.next.inj (he.symm.trans h)
    exact ⟨raise_entropy e s, raise_drawn e s⟩
  · obtain rfl := Host.Outcome.next.inj (he.symm.trans h)
    exact hentropy hdraws

end Sys2Proof.Machine

/-! ### Command words (30_encoding.md R110 to R117)

The decoder accepts a word exactly when the word matches a row of R114 (`decode_eq_ok_iff`). A matching word is
the row's fixed bits and, outside the row's mask, the bits of its fields, and this is how the encoder builds it
(`fieldBits_instr`, `encode_masked`). -/

namespace Sys2Proof

/-! ### The decoder, by the rows of R114 -/

theorem decode_of_unassigned {w : Word} (h : Opcode.ofCode? (bits w 31 24) = none) :
    decode w = .error (.unassignedOpcode (bits w 31 24)) := by
  simp [decode, h]

theorem decode_of_reserved {w : Word} (o : Opcode) (ho : Opcode.ofCode? (bits w 31 24) = some o)
    (h : w &&& o.format.mask ≠ o.matchWord) : decode w = .error (.reservedBit o) := by
  simp [decode, ho, h]

theorem decode_of_match {w : Word} (o : Opcode) (h : w &&& o.format.mask = o.matchWord) :
    decode w = .ok (o.instr w) := by
  simp [decode, ofCode?_of_match w o h, h]

theorem decode_eq_ok_iff {w : Word} {i : Instr} :
    decode w = .ok i ↔ ∃ o : Opcode, w &&& o.format.mask = o.matchWord ∧ o.instr w = i := by
  constructor
  · intro h
    cases ho : Opcode.ofCode? (bits w 31 24) with
    | none => cases (decode_of_unassigned ho).symm.trans h
    | some o =>
      by_cases hm : w &&& o.format.mask = o.matchWord
      · exact ⟨o, hm, Except.ok.inj ((decode_of_match o hm).symm.trans h)⟩
      · cases (decode_of_reserved o ho hm).symm.trans h
  · rintro ⟨o, hm, rfl⟩
    exact decode_of_match o hm

/-- The decoder is total: a word that matches no row is refused. -/
theorem decode_eq_error_of_no_match {w : Word} (h : ∀ o : Opcode, w &&& o.format.mask ≠ o.matchWord) :
    ∃ e, decode w = .error e := by
  cases hw : decode w with
  | error e => exact ⟨e, rfl⟩
  | ok i =>
    obtain ⟨o, hm, -⟩ := decode_eq_ok_iff.mp hw
    exact absurd hm (h o)

/-- A word matches a row only with the row's OPC in bits 31:24. -/
theorem code_of_match {w : Word} {o : Opcode} (h : w &&& o.format.mask = o.matchWord) :
    o.code = w.toNat / 2 ^ 24 := by
  rw [← bits_opc]
  exact (ofCode?_eq_some _ o).mp (ofCode?_of_match w o h)

theorem code_injective : Function.Injective Opcode.code := fun o o' h =>
  Option.some.inj (((ofCode?_eq_some _ o).mpr h).symm.trans ((ofCode?_eq_some _ o').mpr rfl))

theorem matchWord_low (o : Opcode) : o.matchWord &&& 0x00FFFFFF = 0 := by cases o <;> decide

/-! ### Fields read from a word -/

theorem bits_or (v w : Word) (hi lo : Nat) : bits (v ||| w) hi lo = bits v hi lo ||| bits w hi lo := by
  simp only [bits, BitVec.toNat_or, Nat.or_div_two_pow, Nat.or_mod_two_pow]

theorem matchWord_toNat (o : Opcode) : o.matchWord.toNat = 2 ^ 24 * o.code := by cases o <;> rfl

/-- The opcode stands above every field. -/
theorem bits_matchWord (o : Opcode) {hi lo : Nat} (hlo : lo ≤ hi) (hhi : hi < 24) : bits o.matchWord hi lo = 0 := by
  obtain ⟨d, rfl⟩ : ∃ d, hi = lo + d := ⟨hi - lo, by omega⟩
  have hsplit : 2 ^ 24 = 2 ^ lo * (2 ^ (d + 1) * 2 ^ (24 - lo - (d + 1))) := by
    rw [← pow_add, ← pow_add]
    congr 1
    omega
  rw [bits, matchWord_toNat, hsplit, Nat.mul_assoc, Nat.mul_div_cancel_left _ (by positivity), Nat.add_sub_cancel_left,
    Nat.mul_assoc, Nat.mul_mod_right]

/-- A field is read from the field bits alone. -/
theorem bits_encode (i : Instr) {hi lo : Nat} (hlo : lo ≤ hi) (hhi : hi < 24) :
    bits (encode i) hi lo = bits i.fieldBits hi lo := by
  rw [encode, bits_or, bits_matchWord _ hlo hhi, Nat.zero_or]

/-- The two places a field can have (R111): one at bit 8, one at bit 0. -/
def packFields (high low : Nat) : Word := BitVec.ofNat 32 high <<< 8 ||| BitVec.ofNat 32 low

theorem packFields_zero_right (high : Nat) : packFields high 0 = BitVec.ofNat 32 high <<< 8 := BitVec.or_zero

theorem packFields_zero_left (low : Nat) : packFields 0 low = BitVec.ofNat 32 low := BitVec.zero_or

/-- Fields of at most 8 bits do not overlap. -/
theorem packFields_toNat {high low : Nat} (hhigh : high < 256) (hlow : low < 256) :
    (packFields high low).toNat = 2 ^ 8 * high + low := by
  have hlow' : (BitVec.ofNat 32 low).toNat = low := by simp only [BitVec.toNat_ofNat]; omega
  have hhigh' : (BitVec.ofNat 32 high <<< 8).toNat = 2 ^ 8 * high := by
    simp only [BitVec.toNat_shiftLeft, BitVec.toNat_ofNat, Nat.shiftLeft_eq]
    omega
  rw [packFields, BitVec.toNat_or, hhigh', hlow', Nat.two_pow_add_eq_or_of_lt hlow]

section
variable {i : Instr} {high low : Nat} (hfields : i.fieldBits = packFields high low)
include hfields

/-- The field at bit 0 is 6 bits wide in every format that has one. -/
theorem bits_encode_low (hhigh : high < 256) (hlow : low < 64) : bits (encode i) 5 0 = low := by
  rw [bits_encode i (by omega) (by omega), hfields, bits, packFields_toNat hhigh (by omega)]
  omega

/-- The field at bit 8 ends at bit 15 (RULE) or at bit 13 (N). -/
theorem bits_encode_high {hi : Nat} (h8 : 8 ≤ hi) (h15 : hi ≤ 15) (hhigh : high < 2 ^ (hi - 8 + 1))
    (hlow : low < 2 ^ 8) : bits (encode i) hi 8 = high := by
  have hbyte : high < 2 ^ 8 := hhigh.trans_le (Nat.pow_le_pow_right (by omega) (by omega))
  rw [bits_encode i h8 (by omega), hfields, bits, packFields_toNat hbyte hlow, Nat.mul_add_div (by omega),
    Nat.div_eq_of_lt hlow, Nat.add_zero, Nat.mod_eq_of_lt hhigh]

end

/-- The field of bits hi to lo, put back at its place, is the word's bits there. -/
theorem bits_in_place (w : Word) (hi lo : Nat) :
    BitVec.ofNat 32 (bits w hi lo) <<< lo = w &&& BitVec.ofNat 32 (2 ^ (hi - lo + 1) - 1) <<< lo := by
  apply BitVec.eq_of_getLsbD_eq
  intro j hj
  simp only [bits, BitVec.getLsbD_shiftLeft, BitVec.getLsbD_and, BitVec.getLsbD_ofNat, Nat.testBit_mod_two_pow,
    Nat.testBit_div_two_pow, Nat.testBit_two_pow_sub_one]
  by_cases hlo : j < lo
  · simp [hlo]
  · simp [hlo, hj, show j - lo < 32 by omega, Nat.sub_add_cancel (Nat.le_of_not_lt hlo), BitVec.getLsbD, Bool.and_comm]

/-! ### Decode and encode -/

/-- The word of a well-formed command matches the command's row of R114. -/
theorem encode_masked (i : Instr) : Laws.EncodingRow.Statement i := by
  cases i with
  | nop => exact Laws.EncodingRow.nop
  | caInit len rule => exact Laws.EncodingRow.caInit len rule
  | caSetRule rule => exact Laws.EncodingRow.caSetRule rule
  | caSetState => exact Laws.EncodingRow.caSetState
  | caRandomize => exact Laws.EncodingRow.caRandomize
  | caResetState => exact Laws.EncodingRow.caResetState
  | caAdvance => exact Laws.EncodingRow.caAdvance
  | lfsrInit nbits => exact Laws.EncodingRow.lfsrInit nbits
  | lfsrSetRule => exact Laws.EncodingRow.lfsrSetRule
  | lfsrSetState => exact Laws.EncodingRow.lfsrSetState
  | lfsrRandomize => exact Laws.EncodingRow.lfsrRandomize
  | lfsrResetState => exact Laws.EncodingRow.lfsrResetState
  | lfsrAdvance => exact Laws.EncodingRow.lfsrAdvance
  | selChoose n k => exact Laws.EncodingRow.selChoose n k
  | selCombination n k => exact Laws.EncodingRow.selCombination n k
  | pendInit => exact Laws.EncodingRow.pendInit
  | pendSetState => exact Laws.EncodingRow.pendSetState
  | pendSetDt => exact Laws.EncodingRow.pendSetDt
  | pendRandomize => exact Laws.EncodingRow.pendRandomize
  | pendAdvance => exact Laws.EncodingRow.pendAdvance
  | pendDerivs => exact Laws.EncodingRow.pendDerivs

/-- Each field of a well-formed command is read back from the command's word. -/
theorem instr_encode (i : Instr) (h : WellFormed i) : i.opcode.instr (encode i) = i := by
  cases i
  case caInit len rule =>
    obtain ⟨hlen, hrule⟩ := h
    exact congrArg₂ Instr.caInit (bits_encode_low rfl hrule hlen)
      (bits_encode_high rfl (by omega) le_rfl hrule (by omega))
  case caSetRule rule =>
    have hfields : (Instr.caSetRule rule).fieldBits = packFields rule 0 := (packFields_zero_right rule).symm
    exact congrArg Instr.caSetRule (bits_encode_high hfields (by omega) le_rfl h (by omega))
  case lfsrInit nbits =>
    have hfields : (Instr.lfsrInit nbits).fieldBits = packFields 0 nbits := (packFields_zero_left nbits).symm
    exact congrArg Instr.lfsrInit (bits_encode_low hfields (by omega) h)
  case selChoose n k =>
    obtain ⟨hn, hk⟩ := h
    exact congrArg₂ Instr.selChoose (bits_encode_high rfl (by omega) (by omega) hn (by omega))
      (bits_encode_low rfl (by omega) hk)
  case selCombination n k =>
    obtain ⟨hn, hk⟩ := h
    exact congrArg₂ Instr.selCombination (bits_encode_high rfl (by omega) (by omega) hn (by omega))
      (bits_encode_low rfl (by omega) hk)
  all_goals rfl

/-- An opcode's command holds only fields of their widths. -/
theorem instr_wellFormed (o : Opcode) (w : Word) : WellFormed (o.instr w) := by
  cases o
  case caInit => exact ⟨bits_lt w 5 0, bits_lt w 15 8⟩
  case caSetRule => exact bits_lt w 15 8
  case lfsrInit => exact bits_lt w 5 0
  case selChoose => exact ⟨bits_lt w 13 8, bits_lt w 5 0⟩
  case selCombination => exact ⟨bits_lt w 13 8, bits_lt w 5 0⟩
  all_goals trivial

/-- The fields read from a word, put back at their places, are the word's bits outside the mask. -/
theorem fieldBits_instr (o : Opcode) (w : Word) : (o.instr w).fieldBits = w &&& ~~~o.format.mask := by
  have hlow : BitVec.ofNat 32 (bits w 5 0) = w &&& 0x3F := by
    rw [← BitVec.shiftLeft_zero (BitVec.ofNat 32 (bits w 5 0))]
    exact bits_in_place w 5 0
  have hbyte : BitVec.ofNat 32 (bits w 15 8) <<< 8 = w &&& 0xFF00 := bits_in_place w 15 8
  have hsix : BitVec.ofNat 32 (bits w 13 8) <<< 8 = w &&& 0x3F00 := bits_in_place w 13 8
  cases o
  case caInit => exact (congrArg₂ _ hbyte hlow).trans BitVec.and_or_distrib_left.symm
  case caSetRule => exact hbyte
  case lfsrInit => exact hlow
  case selChoose => exact (congrArg₂ _ hsix hlow).trans BitVec.and_or_distrib_left.symm
  case selCombination => exact (congrArg₂ _ hsix hlow).trans BitVec.and_or_distrib_left.symm
  all_goals exact BitVec.and_zero.symm

/-- A word that matches a row is rebuilt from the row's fixed bits and the fields read from it. -/
theorem encode_instr {w : Word} {o : Opcode} (h : w &&& o.format.mask = o.matchWord) : encode (o.instr w) = w := by
  calc encode (o.instr w)
      = w &&& o.format.mask ||| w &&& ~~~o.format.mask := by rw [encode, instr_opcode, fieldBits_instr, h]
    _ = w := by rw [← BitVec.and_or_distrib_left, BitVec.or_not_self, BitVec.and_allOnes]

/-- Settles O2: the word matches the command's row, so the decoder reads the fields from it, and they are the
command's. -/
theorem decodeOfEncode : Obligations.DecodeOfEncode := by
  unfold Obligations.DecodeOfEncode
  intro i hi
  rw [decode_of_match i.opcode (encode_masked i hi), instr_encode i hi]

/-- Settles O3: a word that decodes matches a row (`decode_eq_ok_iff`), and the row rebuilds it. -/
theorem encodeOfDecode : Obligations.EncodeOfDecode := by
  unfold Obligations.EncodeOfDecode
  intro w i h
  obtain ⟨o, hm, rfl⟩ := decode_eq_ok_iff.mp h
  exact ⟨instr_wellFormed o w, encode_instr hm⟩

/-- A word is a command of an opcode exactly when it matches the opcode's row. -/
theorem decodes_to_opcode_iff (w : Word) (o : Opcode) :
    (∃ i, decode w = .ok i ∧ i.opcode = o) ↔ w &&& o.format.mask = o.matchWord := by
  constructor
  · rintro ⟨i, h, rfl⟩
    obtain ⟨o, hm, rfl⟩ := decode_eq_ok_iff.mp h
    rwa [instr_opcode]
  · intro hm
    exact ⟨o.instr w, decode_of_match o hm, instr_opcode o w⟩

/-- Settles O4: the statement's 21 masks and matches are the rows' own, value by value. -/
theorem wordIsCommandByMask : Obligations.WordIsCommandByMask := by
  unfold Obligations.WordIsCommandByMask
  intro w o
  rw [decodes_to_opcode_iff]
  cases o <;> rfl

/-- Settles O1: each word matches the row of its opcode, and its fields are the operands; the last two match no row, one
for its opcode and one for a reserved bit. -/
theorem specWordsDecode : Obligations.SpecWordsDecode := by
  unfold Obligations.SpecWordsDecode
  exact ⟨decode_of_match .nop rfl, decode_of_match .caInit rfl, decode_of_match .caSetRule rfl,
    decode_of_match .caAdvance rfl, decode_of_match .lfsrInit rfl, decode_of_match .lfsrAdvance rfl,
    decode_of_match .selChoose rfl, decode_of_match .selCombination rfl, decode_of_match .pendAdvance rfl,
    decode_of_unassigned rfl, decode_of_reserved .caInit rfl (by decide)⟩

/-! ### Illegal words (R117) -/

/-- A word of no opcode, or with a reserved bit of its opcode's format set, matches no row. -/
theorem no_match_of_illegal {w : Word}
    (h : (∀ o : Opcode, o.code ≠ w.toNat / 2 ^ 24) ∨
      (∃ o : Opcode, o.code = w.toNat / 2 ^ 24 ∧ w &&& o.format.mask &&& 0x00FFFFFF ≠ 0)) (o : Opcode) :
    w &&& o.format.mask ≠ o.matchWord := by
  intro hm
  rcases h with hopc | ⟨o', hopc, hres⟩
  · exact hopc o (code_of_match hm)
  · obtain rfl : o' = o := code_injective (hopc.trans (code_of_match hm).symm)
    exact hres (hm ▸ matchWord_low o')

/-- Settles O5: no row matches, so the word fails decode, and `raise` writes STATUS and ERRFLAGS alone. -/
theorem illegalWordChangesOnlyStatus : Obligations.IllegalWordChangesOnlyStatus := by
  unfold Obligations.IllegalWordChangesOnlyStatus
  intro w s es hillegal hs
  obtain ⟨e, he⟩ := decode_eq_error_of_no_match (no_match_of_illegal hillegal)
  rw [Machine.step_access hs, Machine.serve_cmdWrite, Machine.execute_error w e _ he, Machine.raise_illegalCommand]
  rfl

end Sys2Proof

/-! ### The CA unit (40_ca.md)

A bit of CA_NEXT and a bit of the parallel form of R147 are both the table entry of the same neighbourhood code, and the
neighbourhood of bit p is bit p of `rotr_L(S)`, of S and of `rotl_L(S)`. So the laws of CA_NEXT are read off bit by bit
from the eight entries of the rule table. -/

namespace Sys2Proof.Machine

/-! ### The neighbourhood code (R146, R147) -/

/-- The code of a neighbourhood: left neighbour, cell, right neighbour, most significant first (R146). -/
def neighbourCode (left centre right : Bool) : Nat := 4 * left.toNat + 2 * centre.toNat + right.toNat

theorem caCode_eq_neighbourCode (v : Word) (L p : Nat) :
    caCode v L p = neighbourCode (v.getLsbD ((p + 1) % L)) (v.getLsbD p) (v.getLsbD ((p + L - 1) % L)) := rfl

/-- A code below 8 is a neighbourhood's code exactly when its three bits are the neighbourhood's cells. -/
theorem neighbourCode_eq_iff {c : Nat} (hc : c < 8) (left centre right : Bool) :
    neighbourCode left centre right = c ↔ left = c.testBit 2 ∧ centre = c.testBit 1 ∧ right = c.testBit 0 := by
  revert c left centre right
  decide

section
variable {v : Word} {L : Nat}

theorem getLsbD_eq_false_of_ring_le (hv : v.toNat < 2 ^ L) {j : Nat} (hj : L ≤ j) : v.getLsbD j = false :=
  Laws.EncodingRow.field_high_bit L v.toNat j hv hj

/-- The code of bit j, from the two rotations. -/
theorem caCode_eq_rotations (h3 : 3 ≤ L) (hL : L ≤ 32) (hv : v.toNat < 2 ^ L) {j : Nat} (hj : j < L) :
    caCode v L j = neighbourCode ((ringDown v L).getLsbD j) (v.getLsbD j) ((ringUp v L).getLsbD j) := by
  rw [caCode_eq_neighbourCode, ringDown_getLsbD v L j h3 hL hv, ringUp_getLsbD v L j h3 hL hv]
  simp [hj]

/-! ### The parallel form (R147) -/

/-- A word or its complement, chosen by a Boolean, has bit j set exactly when the word's bit j is that Boolean. -/
theorem getLsbD_ite_not (w : Word) (b : Bool) {j : Nat} (hj : j < 32) :
    (if b then w else ~~~w).getLsbD j = decide (w.getLsbD j = b) := by
  cases b <;> simp [hj]

theorem codeCells_getLsbD (h3 : 3 ≤ L) (hL : L ≤ 32) (hv : v.toNat < 2 ^ L) {c : Nat} (hc : c < 8) (j : Nat) :
    (codeCells v L c).getLsbD j = (decide (j < L) && decide (caCode v L j = c)) := by
  rw [codeCells, lowBits_getLsbD]
  by_cases hj : j < L
  · have hj32 : j < 32 := by omega
    rw [caCode_eq_rotations h3 hL hv hj]
    simp only [BitVec.getLsbD_and, getLsbD_ite_not _ _ hj32, neighbourCode_eq_iff hc, Bool.decide_and, Bool.and_assoc]
  · simp [hj]

/-- An OR over the members of a list that pass a test, bit by bit. -/
theorem foldl_or_getLsbD (p : Nat → Bool) (f : Nat → Word) (l : List Nat) (acc : Word) (j : Nat) :
    (l.foldl (fun acc c => if p c then acc ||| f c else acc) acc).getLsbD j
      = (acc.getLsbD j || l.any fun c => p c && (f c).getLsbD j) := by
  induction l generalizing acc with
  | nil => simp
  | cons c l ih =>
    rw [List.foldl_cons, ih, List.any_cons]
    cases p c <;> simp [Bool.or_assoc]

/-- Of the eight codes, only the bit's own code contributes to it. -/
theorem caNextParallel_getLsbD (h3 : 3 ≤ L) (hL : L ≤ 32) (hv : v.toNat < 2 ^ L) (rule j : Nat) :
    (caNextParallel v L rule).getLsbD j = (decide (j < L) && rule.testBit (caCode v L j)) := by
  have hzero : (0 : Word).getLsbD j = false := BitVec.getLsbD_zero
  rw [caNextParallel, foldl_or_getLsbD, hzero, Bool.false_or, Bool.eq_iff_iff, List.any_eq_true]
  constructor
  · rintro ⟨c, hc, hbit⟩
    rw [codeCells_getLsbD h3 hL hv (List.mem_range.mp hc)] at hbit
    simp only [Bool.and_eq_true, decide_eq_true_eq] at hbit ⊢
    obtain ⟨hrule, hj, rfl⟩ := hbit
    exact ⟨hj, hrule⟩
  · intro hbit
    have hc : caCode v L j < 8 := caCode_lt v L j
    refine ⟨caCode v L j, List.mem_range.mpr hc, ?_⟩
    rw [codeCells_getLsbD h3 hL hv hc]
    simpa [and_comm] using hbit

theorem caNext_eq_caNextParallel (h3 : 3 ≤ L) (hL : L ≤ 32) (hv : v.toNat < 2 ^ L) (rule : Nat) :
    caNext v L rule = caNextParallel v L rule := by
  apply BitVec.eq_of_getLsbD_eq
  intro j _
  rw [caNext_getLsbD v L rule j hL, caNextParallel_getLsbD h3 hL hv]

/-! ### The sum form (R147) -/

theorem caNextBelow_eq_sum (v : Word) (L rule n : Nat) :
    caNextBelow v L rule n = ∑ p ∈ Finset.range n, (rule.testBit (caCode v L p)).toNat * 2 ^ p := by
  induction n with
  | zero => rfl
  | succ n ih => rw [Finset.sum_range_succ, caNextBelow, ih]

theorem caNext_toNat (v : Word) (rule : Nat) (hL : L ≤ 32) : (caNext v L rule).toNat = caNextBelow v L rule L := by
  have hlt : caNextBelow v L rule L < 2 ^ L := (caNextBelow_testBit v L rule L 0).2
  rw [caNext, BitVec.toNat_ofNat]
  exact Nat.mod_eq_of_lt (hlt.trans_le (Nat.pow_le_pow_right (by norm_num) hL))

end

/-- Settles O29: the sum form is the recursion of `caNextBelow`, and the two forms agree bit by bit. -/
theorem caSumAndParallelFormsAgree : Obligations.CaSumAndParallelFormsAgree := by
  unfold Obligations.CaSumAndParallelFormsAgree
  intro v L rule h3 hL hv
  exact ⟨(caNext_toNat v rule hL).trans (caNextBelow_eq_sum v L rule L), caNext_lt v L rule,
    caNext_eq_caNextParallel h3 hL hv rule⟩

/-! ### Laws of particular rules (R149) -/

section
variable {v : Word} {L : Nat}

/-- All L cells 1. -/
theorem ringOnes_getLsbD (hL : L ≤ 32) (j : Nat) : (BitVec.ofNat 32 (2 ^ L - 1)).getLsbD j = decide (j < L) := by
  rw [BitVec.getLsbD_ofNat, Nat.testBit_two_pow_sub_one, ← Bool.decide_and]
  exact decide_eq_decide.mpr ⟨And.right, fun h => ⟨by omega, h⟩⟩

theorem ringOnes_toNat (hL : L ≤ 32) : (BitVec.ofNat 32 (2 ^ L - 1)).toNat = 2 ^ L - 1 := by
  rw [BitVec.toNat_ofNat]
  exact Nat.mod_eq_of_lt (lt_of_lt_of_le (Nat.sub_one_lt (by positivity)) (Nat.pow_le_pow_right (by norm_num) hL))

/-- Where the rule's table is the Boolean function f of the neighbourhood, the new word is f of the two rotations and
the old word, bit by bit. -/
theorem caNext_eq_of_table (h3 : 3 ≤ L) (hL : L ≤ 32) (hv : v.toNat < 2 ^ L) {rule : Nat} {w : Word}
    (f : Bool → Bool → Bool → Bool)
    (htable : ∀ left centre right, rule.testBit (neighbourCode left centre right) = f left centre right)
    (hw : ∀ j, w.getLsbD j
      = (decide (j < L) && f ((ringDown v L).getLsbD j) (v.getLsbD j) ((ringUp v L).getLsbD j))) :
    caNext v L rule = w := by
  apply BitVec.eq_of_getLsbD_eq
  intro j _
  rw [caNext_getLsbD v L rule j hL, hw]
  by_cases hj : j < L
  · rw [caCode_eq_rotations h3 hL hv hj, htable]
  · simp [hj]

/-- A ring whose neighbourhoods all have the code c goes to all ones or all zeros, as the entry of c says. -/
theorem caNext_of_caCode_eq (hL : L ≤ 32) (rule c : Nat) (hc : ∀ j < L, caCode v L j = c) :
    caNext v L rule = if rule.testBit c then BitVec.ofNat 32 (2 ^ L - 1) else 0 := by
  apply BitVec.eq_of_getLsbD_eq
  intro j _
  rw [caNext_getLsbD v L rule j hL]
  by_cases hj : j < L
  · rw [hc j hj]
    cases rule.testBit c <;> simp [hj, ringOnes_getLsbD hL]
  · cases rule.testBit c <;> simp [hj, ringOnes_getLsbD hL]

theorem caCode_zero (L j : Nat) : caCode 0 L j = 0 := by simp [caCode]

theorem caCode_ringOnes (hL : L ≤ 32) {j : Nat} (hj : j < L) : caCode (BitVec.ofNat 32 (2 ^ L - 1)) L j = 7 := by
  have hpos : 0 < L := by omega
  simp [caCode_eq_neighbourCode, ringOnes_getLsbD hL, Nat.mod_lt _ hpos, hj, neighbourCode]

section
variable (h3 : 3 ≤ L) (hL : L ≤ 32) (hv : v.toNat < 2 ^ L)
include h3 hL hv

theorem caNext_rule_0 : caNext v L 0 = 0 :=
  caNext_eq_of_table h3 hL hv (fun _ _ _ => false) (by decide) (by simp)

theorem caNext_rule_255 : caNext v L 255 = BitVec.ofNat 32 (2 ^ L - 1) :=
  caNext_eq_of_table h3 hL hv (fun _ _ _ => true) (by decide) fun j => by rw [ringOnes_getLsbD hL, Bool.and_true]

theorem caNext_rule_204 : caNext v L 204 = v := by
  refine caNext_eq_of_table h3 hL hv (fun _ centre _ => centre) (by decide) fun j => ?_
  by_cases hj : j < L
  · simp [hj]
  · simp [hj, getLsbD_eq_false_of_ring_le hv (not_lt.mp hj)]

theorem caNext_rule_51 : caNext v L 51 = lowBits (~~~v) L := by
  refine caNext_eq_of_table h3 hL hv (fun _ centre _ => !centre) (by decide) fun j => ?_
  rw [lowBits_getLsbD]
  by_cases hj : j < L
  · have hj32 : j < 32 := by omega
    simp [hj, hj32]
  · simp [hj]

theorem caNext_rule_170 : caNext v L 170 = ringUp v L := by
  refine caNext_eq_of_table h3 hL hv (fun _ _ right => right) (by decide) fun j => ?_
  simp [ringUp_getLsbD v L j h3 hL hv]

theorem caNext_rule_240 : caNext v L 240 = ringDown v L := by
  refine caNext_eq_of_table h3 hL hv (fun left _ _ => left) (by decide) fun j => ?_
  simp [ringDown_getLsbD v L j h3 hL hv]

theorem caNext_rule_90 : caNext v L 90 = ringUp v L ^^^ ringDown v L := by
  refine caNext_eq_of_table h3 hL hv (fun left _ right => right ^^ left) (by decide) fun j => ?_
  rw [BitVec.getLsbD_xor, ringUp_getLsbD v L j h3 hL hv, ringDown_getLsbD v L j h3 hL hv]
  cases decide (j < L) <;> rfl

end

theorem caNext_zero_of_even (hL : L ≤ 32) {rule : Nat} (hrule : rule % 2 = 0) : caNext 0 L rule = 0 := by
  have hentry : rule.testBit 0 = false := by simp [Nat.testBit_zero, hrule]
  rw [caNext_of_caCode_eq hL rule 0 fun j _ => caCode_zero L j, hentry]
  rfl

theorem caNext_ringOnes_of_ge (hL : L ≤ 32) {rule : Nat} (hlo : 128 ≤ rule) (hhi : rule ≤ 255) :
    caNext (BitVec.ofNat 32 (2 ^ L - 1)) L rule = BitVec.ofNat 32 (2 ^ L - 1) := by
  have hentry : rule.testBit 7 = true := by
    rw [Nat.testBit_eq_decide_div_mod_eq]
    exact decide_eq_true (by omega)
  rw [caNext_of_caCode_eq hL rule 7 fun j => caCode_ringOnes hL, if_pos hentry]

end

/-- Settles O30: a rule whose table is a function of the neighbourhood by `caNext_eq_of_table`, a uniform ring by
`caNext_of_caCode_eq`. -/
theorem caRuleLaws : Obligations.CaRuleLaws := by
  unfold Obligations.CaRuleLaws
  intro v L h3 hL hv
  exact ⟨caNext_rule_0 h3 hL hv, by rw [caNext_rule_255 h3 hL hv, ringOnes_toNat hL],
    fun rule hrule => caNext_zero_of_even hL hrule, fun rule hlo hhi => caNext_ringOnes_of_ge hL hlo hhi,
    caNext_rule_204 h3 hL hv, caNext_rule_51 h3 hL hv, caNext_rule_170 h3 hL hv, caNext_rule_240 h3 hL hv,
    caNext_rule_90 h3 hL hv⟩

/-! ### CA_ADVANCE by cells (R145, R146, R148)

Cell i is bit L - 1 - i, so the bits count against the cells: the left neighbour of a cell stands one bit above it. -/

theorem leftNeighbour_bit {L i : Nat} (hi : i < L) : L - 1 - (i + L - 1) % L = (L - 1 - i + 1) % L := by
  rcases Nat.eq_zero_or_pos i with rfl | hpos
  · rw [Nat.zero_add, Nat.mod_eq_of_lt (by omega : L - 1 < L), Nat.sub_self, Nat.sub_zero,
      Nat.sub_add_cancel (by omega), Nat.mod_self]
  · rw [show i + L - 1 = i - 1 + L by omega, Nat.add_mod_right, Nat.mod_eq_of_lt (by omega : i - 1 < L),
      Nat.mod_eq_of_lt (by omega)]
    omega

theorem rightNeighbour_bit {L i : Nat} (hi : i < L) : L - 1 - (i + 1) % L = (L - 1 - i + L - 1) % L := by
  rcases Nat.lt_or_ge (i + 1) L with hlt | hge
  · rw [Nat.mod_eq_of_lt hlt, show L - 1 - i + L - 1 = L - 1 - (i + 1) + L by omega, Nat.add_mod_right,
      Nat.mod_eq_of_lt (by omega)]
  · obtain rfl : L = i + 1 := by omega
    simp

/-- The code of the bit that holds cell i, from the cells. -/
theorem caCode_of_cell (v : Word) {L i : Nat} (hi : i < L) :
    caCode v L (L - 1 - i)
      = neighbourCode (seqBit v L ((i + L - 1) % L)) (seqBit v L i) (seqBit v L ((i + 1) % L)) := by
  simp only [caCode_eq_neighbourCode, seqBit, leftNeighbour_bit hi, rightNeighbour_bit hi]

/-- Entry c of the rule table is bit 8 + c of CA_CFG (R37, R38). -/
theorem CaUnit.rule_testBit (u : CaUnit) {c : Nat} (hc : c < 8) : u.rule.testBit c = u.cfg.getLsbD (8 + c) := by
  rw [CaUnit.rule, bits, Nat.testBit_mod_two_pow, Nat.testBit_div_two_pow, Nat.add_comm c 8, BitVec.getLsbD]
  simp [hc]

/-- Settles O28: cell i of the new state is a bit of CA_NEXT, whose code is the code of the old cell's neighbourhood. -/
theorem caAdvanceEffect : Obligations.CaAdvanceEffect := by
  unfold Obligations.CaAdvanceEffect
  intro s _ hL
  refine ⟨caNext s.ca.state s.ca.len s.ca.rule, rfl, fun j hj => ?_, fun i hi => ?_⟩
  · exact getLsbD_eq_false_of_ring_le (caNext_lt _ _ _) hj
  · have hbit : s.ca.len - 1 - i < s.ca.len := by omega
    rw [seqBit, caNext_getLsbD _ _ _ _ hL, CaUnit.rule_testBit s.ca (caCode_lt _ _ _), caCode_of_cell _ hi]
    simp [hbit, neighbourCode]

/-! ### The configuration and the cells (R140 to R144) -/

/-- CA_INIT by its length: refused outside 3 to 32. -/
theorem exec_caInit_refused {len : Nat} (rule : Nat) (s : State) (h : len < 3 ∨ 32 < len) :
    exec (.caInit len rule) s = .next (raise .configError s) := if_pos h

theorem exec_caInit_accepted {len : Nat} (rule : Nat) (s : State) (h : 3 ≤ len ∧ len ≤ 32) :
    exec (.caInit len rule) s = .next (finish (s.withCa { state := 0, cfg := caCfgWord len rule })) := by
  have haccepts : ¬ (len < 3 ∨ 32 < len) := by omega
  exact if_neg haccepts

/-- Fields that fit are the fields of CA_CFG as they are. -/
theorem caCfgWord_of_lt {len rule : Nat} (hlen : len < 64) (hrule : rule < 256) :
    caCfgWord len rule = BitVec.ofNat 32 (rule * 256 + len) := by
  rw [caCfgWord, Nat.mod_eq_of_lt hrule, Nat.mod_eq_of_lt hlen]

/-- Settles O23, by the length's two cases. -/
theorem caInitEffect : Obligations.CaInitEffect := by
  unfold Obligations.CaInitEffect
  rintro len rule s ⟨hlen, hrule⟩
  constructor
  · intro h
    rw [exec_caInit_accepted rule s h, caCfgWord_of_lt hlen hrule]
    rfl
  · intro h
    rw [exec_caInit_refused rule s h, raise_configError]

/-- CA_CFG as its two fields in their places. -/
theorem caCfgWord_eq_packFields (len rule : Nat) : caCfgWord len rule = packFields (rule % 256) (len % 64) := by
  apply BitVec.eq_of_toNat_eq
  rw [caCfgWord_toNat, packFields_toNat (Nat.mod_lt _ (by norm_num)) (by omega)]
  omega

theorem caCfgWord_reserved (len rule : Nat) : caCfgWord len rule &&& 0xFFFF00C0 = 0 := by
  rw [caCfgWord_eq_packFields, packFields]
  exact Laws.EncodingRow.or_masked _ _ _
    (Laws.EncodingRow.high_field_masked 8 _ (Nat.mod_lt _ (by norm_num)) _ (by decide))
    (Laws.EncodingRow.low_field_masked _ (Nat.mod_lt _ (by norm_num)) _ (by decide))

/-- Settles O24: the new CA_CFG is made of the old LEN and the operand, which fits its field. -/
theorem caSetRuleEffect : Obligations.CaSetRuleEffect := by
  unfold Obligations.CaSetRuleEffect
  intro rule s hrule
  have hfit : rule < 256 := hrule
  have hlen : s.ca.len = s.ca.cfg.toNat % 64 := by simp [CaUnit.len, bits]
  refine ⟨caCfgWord s.ca.len rule, rfl, ?_, ?_, caCfgWord_reserved _ _⟩ <;> rw [caCfgWord_toNat]
  · omega
  · omega

/-- Settles O25, by the bits of `lowBits`. -/
theorem caSetStateEffect : Obligations.CaSetStateEffect := by
  unfold Obligations.CaSetStateEffect
  exact fun s => ⟨lowBits s.arg0 s.ca.len, rfl, lowBits_getLsbD s.arg0 s.ca.len⟩

/-- CA_RANDOMIZE keeps the low L bits of the word it takes (R143). -/
theorem exec_caRandomize {s t : State} {w : Word} (h : takeWord s = (w, t)) :
    exec .caRandomize s = .next (finish (t.withCa { s.ca with state := lowBits w s.ca.len })) := by
  simp only [exec, execCaRandomize, drawBits, h]

/-- Settles O26: a listed word is taken and cut to L bits; without one the free word is; and a value that fits L bits is
left as it is by the cut, so the word of that value gives it. -/
theorem caRandomizeEffect : Obligations.CaRandomizeEffect := by
  unfold Obligations.CaRandomizeEffect
  refine ⟨fun s w ws hs => ?_, fun s hs => ?_, fun s v hv => ?_⟩
  · exact ⟨lowBits w s.ca.len, exec_caRandomize (takeWord_of_cons s w ws hs), lowBits_getLsbD w s.ca.len⟩
  · refine ⟨lowBits (Config.entropyWord s.drawn) s.ca.len, lowBits_lt _ _, ?_⟩
    rw [exec_caRandomize (takeWord_of_nil s hs), State.withEntropy, ← hs]
    rfl
  · refine ⟨v, ?_⟩
    rw [exec_caRandomize (takeWord_of_cons _ v [] rfl), lowBits_of_lt v _ hv]
    rfl

/-- Settles O27: CA_RESET_STATE writes the cells alone and ends OK. -/
theorem caResetStateEffect : Obligations.CaResetStateEffect := by
  unfold Obligations.CaResetStateEffect
  exact fun s => congrArg Host.Outcome.next (finish_eq (s.withCa { s.ca with state := 0 }))

end Sys2Proof.Machine

/-! ### The LFSR unit (41_lfsr.md)

A legal rule number puts every tap at 1 to N - 1 (R170), so an advance loses only bit 0, and the feedback bit it leaves
at N - 1 gives that bit back: it is bit 0 XOR bits that are still there (`feedbackBit_eq_iff`). The laws of R179 follow
from this one fact. LFSR_SAVED is written by two commands alone (`exec_saved`), which R176 carries over any accesses. -/

namespace Sys2Proof.Machine

/-! ### Taps (R171) -/

theorem mem_taps {rule t : Nat} : t ∈ taps rule ↔ ∃ i, i ≤ 7 ∧ rule.testBit i = true ∧ t = i + 1 := by
  simp only [taps, List.mem_map, List.mem_filter, List.mem_range, Nat.lt_succ_iff, and_assoc, eq_comm]

theorem one_le_of_mem_taps {rule t : Nat} (h : t ∈ taps rule) : 1 ≤ t := by
  obtain ⟨i, -, -, rfl⟩ := mem_taps.mp h
  exact Nat.le_add_left 1 i

/-- The taps come from rule bits 7 to 0 alone. -/
theorem taps_eq_nil {rule : Nat} (h : rule % 256 = 0) : taps rule = [] := by
  rw [List.eq_nil_iff_forall_not_mem]
  intro t ht
  obtain ⟨i, hi, hbit, -⟩ := mem_taps.mp ht
  have hlow : (rule % 2 ^ 8).testBit i = true := by
    rw [Nat.testBit_mod_two_pow, hbit, Bool.and_true]
    exact decide_eq_true (by omega)
  simp [h] at hlow

/-- The mask is the rule's low byte moved up one place. -/
theorem tapMask_getLsbD (rule t : Nat) :
    (tapMask rule).getLsbD t = (decide (1 ≤ t ∧ t ≤ 8) && rule.testBit (t - 1)) := by
  have hmask : rule % 256 * 2 = 2 ^ 1 * (rule % 2 ^ 8) := by omega
  rw [tapMask, BitVec.getLsbD_ofNat, hmask, Nat.testBit_two_pow_mul, Nat.testBit_mod_two_pow, ← Bool.and_assoc,
    ← Bool.and_assoc, ← Bool.decide_and, ← Bool.decide_and]
  congr 2
  exact propext (by omega)

/-- Settles O31: bit t of the mask is rule bit t - 1, for t of 1 to 8. -/
theorem tapsAreLowRuleBits : Obligations.TapsAreLowRuleBits := by
  unfold Obligations.TapsAreLowRuleBits
  intro rule t
  refine ⟨mem_taps, ?_⟩
  rw [tapMask_getLsbD, Bool.eq_iff_iff, Bool.and_eq_true, decide_eq_true_eq, decide_eq_true_eq, mem_taps]
  constructor
  · rintro ⟨⟨hlo, hhi⟩, hbit⟩
    exact ⟨t - 1, by omega, hbit, by omega⟩
  · rintro ⟨i, hi, hbit, rfl⟩
    exact ⟨by omega, hbit⟩

/-! ### CHECK_RULE (R170) -/

section
variable {rule n : Nat}

theorem checkRule_eq_configError_iff : checkRule rule n = some .configError ↔ rule < 1 ∨ 2 ^ (n - 1) < rule := by
  unfold checkRule
  split
  · exact iff_of_true rfl ‹_›
  · split <;> exact iff_of_false (by simp) ‹_›

theorem checkRule_eq_invalidTap_iff :
    checkRule rule n = some .invalidTap ↔ (1 ≤ rule ∧ rule ≤ 2 ^ (n - 1)) ∧ ∃ t ∈ taps rule, n - 1 < t := by
  have hrange : (1 ≤ rule ∧ rule ≤ 2 ^ (n - 1)) ↔ ¬ (rule < 1 ∨ 2 ^ (n - 1) < rule) := by omega
  have htaps : (∃ t ∈ taps rule, n - 1 < t) ↔ (taps rule).any (fun t => decide (n - 1 < t)) = true := by simp
  rw [hrange, htaps]
  unfold checkRule
  split
  · exact iff_of_false (by simp) fun h => h.1 ‹_›
  · split
    · exact iff_of_true rfl ⟨‹_›, ‹_›⟩
    · exact iff_of_false (by simp) fun h => absurd h.2 ‹_›

/-- Only the top bit that the range allows can stand for a tap above n - 1, and only where that bit is one of 0 to 7. -/
theorem tap_above_iff (hn : 1 ≤ n) (hrule : rule ≤ 2 ^ (n - 1)) :
    (∃ t ∈ taps rule, n - 1 < t) ↔ n ≤ 8 ∧ rule = 2 ^ (n - 1) := by
  constructor
  · rintro ⟨t, ht, habove⟩
    obtain ⟨i, hi, hbit, rfl⟩ := mem_taps.mp ht
    have hle : 2 ^ i ≤ rule := Nat.ge_two_pow_of_testBit hbit
    have hge : 2 ^ (n - 1) ≤ 2 ^ i := Nat.pow_le_pow_right (by norm_num) (by omega)
    exact ⟨by omega, by omega⟩
  · rintro ⟨h8, rfl⟩
    exact ⟨n - 1 + 1, mem_taps.mpr ⟨n - 1, by omega, Nat.testBit_two_pow_self, rfl⟩, Nat.lt_succ_self _⟩

theorem checkRule_eq_invalidTap_iff_top (hn : 1 ≤ n) :
    checkRule rule n = some .invalidTap ↔ n ≤ 8 ∧ rule = 2 ^ (n - 1) := by
  rw [checkRule_eq_invalidTap_iff]
  constructor
  · rintro ⟨⟨-, hrule⟩, htap⟩
    exact (tap_above_iff hn hrule).mp htap
  · intro htop
    have ⟨_, hrule⟩ := htop
    exact ⟨⟨hrule ▸ Nat.one_le_two_pow, hrule.le⟩, (tap_above_iff hn hrule.le).mpr htop⟩

theorem checkRule_result (rule n : Nat) :
    checkRule rule n = none ∨ checkRule rule n = some .configError ∨ checkRule rule n = some .invalidTap := by
  cases h : checkRule rule n with
  | none => exact .inl rfl
  | some e => exact .inr ((checkRule_eq_some rule n e h).imp (congrArg some) (congrArg some))

/-- Every rule number in range is accepted but the one that INVALID_TAP names. -/
theorem checkRule_eq_none (hn : 1 ≤ n) (hrange : 1 ≤ rule ∧ rule ≤ 2 ^ (n - 1))
    (htop : ¬ (n ≤ 8 ∧ rule = 2 ^ (n - 1))) : checkRule rule n = none := by
  rcases checkRule_result rule n with h | h | h
  · exact h
  · have := checkRule_eq_configError_iff.mp h
    omega
  · exact absurd ((checkRule_eq_invalidTap_iff_top hn).mp h) htop

end

/-- Settles O32, from the three results of CHECK_RULE. -/
theorem checkRuleDecidesRule : Obligations.CheckRuleDecidesRule := by
  unfold Obligations.CheckRuleDecidesRule
  intro rule n hn
  exact ⟨fun t => one_le_of_mem_taps, checkRule_eq_configError_iff, checkRule_eq_invalidTap_iff,
    checkRule_eq_invalidTap_iff_top (by omega), checkRule_result rule n⟩

/-! ### LFSR_INIT and LFSR_SET_RULE (R172, R173) -/

section
variable {n : Nat} {s : State}

theorem exec_lfsrInit_badWidth (h : n < 2 ∨ 32 < n) : exec (.lfsrInit n) s = .next (raise .configError s) := if_pos h

section
variable (hwidth : ¬ (n < 2 ∨ 32 < n))
include hwidth

theorem exec_lfsrInit_badState (h : s.arg0 = 0 ∨ 2 ^ n ≤ s.arg0.toNat) :
    exec (.lfsrInit n) s = .next (raise .configError s) := (if_neg hwidth).trans (if_pos h)

section
variable (hinit : ¬ (s.arg0 = 0 ∨ 2 ^ n ≤ s.arg0.toNat))
include hinit

theorem exec_lfsrInit_badRule {e : ErrorCode} (h : checkRule s.arg1.toNat n = some e) :
    exec (.lfsrInit n) s = .next (raise e s) := by
  refine (if_neg hwidth).trans ((if_neg hinit).trans ?_)
  rw [x_1, h]

theorem exec_lfsrInit_ok (h : checkRule s.arg1.toNat n = none) :
    exec (.lfsrInit n) s = .next (finish (s.withLfsr
      { state := s.arg0, cfg := lfsrCfgWord n, rule := s.arg1, taps := tapMask s.arg1.toNat, saved := s.arg0 })) := by
  refine (if_neg hwidth).trans ((if_neg hinit).trans ?_)
  rw [x_1, h, x_0]

end

end

theorem exec_lfsrSetRule_bad {e : ErrorCode} (h : checkRule s.arg0.toNat s.lfsr.nbits = some e) :
    exec .lfsrSetRule s = .next (raise e s) := by
  simp only [exec, execLfsrSetRule, x_0, h]

theorem exec_lfsrSetRule_ok (h : checkRule s.arg0.toNat s.lfsr.nbits = none) :
    exec .lfsrSetRule s
      = .next (finish (s.withLfsr { s.lfsr with rule := s.arg0, taps := tapMask s.arg0.toNat })) := by
  simp only [exec, execLfsrSetRule, x_0, h]

end

/-- Settles O33, by the checks in their order: width, initial state, rule. -/
theorem lfsrInitEffect : Obligations.LfsrInitEffect := by
  unfold Obligations.LfsrInitEffect
  intro n s hn64
  have hfitting (h : s.arg0 ≠ 0 ∧ s.arg0.toNat < 2 ^ n) : ¬ (s.arg0 = 0 ∨ 2 ^ n ≤ s.arg0.toNat) := by
    rwa [not_or, not_le]
  refine ⟨?accepted, ?refused, ?badTap⟩
  case accepted =>
    rintro ⟨hwidth, hinit, hrange, htop⟩
    have hrule := checkRule_eq_none (by omega) hrange htop
    rw [exec_lfsrInit_ok (by omega) (hfitting hinit) hrule, lfsrCfgWord, Nat.mod_eq_of_lt hn64]
    rfl
  case refused =>
    intro h
    rw [← raise_configError]
    by_cases hwidth : n < 2 ∨ 32 < n
    · exact exec_lfsrInit_badWidth hwidth
    · by_cases hinit : s.arg0 = 0 ∨ 2 ^ n ≤ s.arg0.toNat
      · exact exec_lfsrInit_badState hwidth hinit
      · have hrange := (or_assoc.mpr ((or_assoc.mpr h).resolve_left hwidth)).resolve_left hinit
        exact exec_lfsrInit_badRule hwidth hinit (checkRule_eq_configError_iff.mpr hrange)
  case badTap =>
    rintro ⟨⟨hlo, hhi⟩, hinit, hrule⟩
    rw [← raise_invalidTap]
    exact exec_lfsrInit_badRule (by omega) (hfitting hinit)
      ((checkRule_eq_invalidTap_iff_top (by omega)).mpr ⟨hhi, hrule⟩)

/-- Settles O34, by the three results of CHECK_RULE. -/
theorem lfsrSetRuleEffect : Obligations.LfsrSetRuleEffect := by
  unfold Obligations.LfsrSetRuleEffect
  intro s hlo _
  have hpos : 1 ≤ s.lfsr.nbits := by omega
  refine ⟨?accepted, ?refused, ?badTap⟩
  case accepted =>
    rintro ⟨hrange, htop⟩
    rw [exec_lfsrSetRule_ok (checkRule_eq_none hpos hrange htop)]
    rfl
  case refused =>
    intro hrange
    rw [← raise_configError]
    exact exec_lfsrSetRule_bad (checkRule_eq_configError_iff.mpr hrange)
  case badTap =>
    intro htop
    rw [← raise_invalidTap]
    exact exec_lfsrSetRule_bad ((checkRule_eq_invalidTap_iff_top hpos).mpr htop)

/-! ### LFSR_SET_STATE and LFSR_RANDOMIZE (R174, R175) -/

/-- Settles O35, by the bits of `lowBits`. -/
theorem lfsrSetStateEffect : Obligations.LfsrSetStateEffect := by
  unfold Obligations.LfsrSetStateEffect
  exact fun s => ⟨lowBits s.arg0 s.lfsr.nbits, rfl, lowBits_getLsbD s.arg0 s.lfsr.nbits⟩

theorem lowBits_eq_zero_iff (v : Word) (n : Nat) : lowBits v n = 0 ↔ v.toNat % 2 ^ n = 0 := by
  rw [← BitVec.toNat_inj, lowBits_toNat, BitVec.ofNat_eq_ofNat, BitVec.toNat_zero]

section
variable {n : Nat}

theorem firstNonzero_append {skipped : List Word} (h : ∀ x ∈ skipped, lowBits x n = 0) (l : List Word) :
    firstNonzero n (skipped ++ l) = firstNonzero n l := by
  induction skipped with
  | nil => rfl
  | cons x xs ih =>
    obtain ⟨hx, hxs⟩ := List.forall_mem_cons.mp h
    rw [List.cons_append, firstNonzero, if_pos hx, ih hxs]

/-- `draw_range` skips the words whose low n bits are 0 (R98). -/
theorem drawNonzero_of_listed {s : State} {skipped ws : List Word} {w : Word} (hs : s.entropy = skipped ++ w :: ws)
    (hskipped : ∀ x ∈ skipped, lowBits x n = 0) (hw : lowBits w n ≠ 0) :
    drawNonzero n s = (lowBits w n, s.withEntropy ws s.drawn) := by
  have hfound : firstNonzero n s.entropy = some (lowBits w n, ws) := by
    rw [hs, firstNonzero_append hskipped, firstNonzero, if_neg hw]
  simp [drawNonzero, hfound]

/-- Where every listed word is skipped, the draw is one free value (log 4). -/
theorem drawNonzero_of_all_skipped {s : State} (h : ∀ x ∈ s.entropy, lowBits x n = 0) :
    drawNonzero n s = (freeNonzero n s.drawn, s.withEntropy [] (s.drawn + 1)) := by
  have hnone : firstNonzero n s.entropy = none := by
    rw [← List.append_nil s.entropy, firstNonzero_append h, firstNonzero]
  simp [drawNonzero, hnone]

end

theorem exec_lfsrRandomize {s t : State} {v : Word} (h : drawNonzero s.lfsr.nbits s = (v, t)) :
    exec .lfsrRandomize s = .next (finish (t.withLfsr { s.lfsr with state := v })) := by
  simp only [exec, execLfsrRandomize, h]

/-- Settles O36, by the two ends of `draw_range`. -/
theorem lfsrRandomizeEffect : Obligations.LfsrRandomizeEffect := by
  unfold Obligations.LfsrRandomizeEffect
  simp only [← lowBits_eq_zero_iff, ne_eq]
  constructor
  · intro s skipped w ws hs hskipped hw
    rw [exec_lfsrRandomize (drawNonzero_of_listed hs hskipped hw)]
    rfl
  · intro s hlo hhi hskipped
    obtain ⟨hpos, hmax⟩ := freeNonzero_toNat s.lfsr.nbits s.drawn hhi (by omega)
    refine ⟨freeNonzero s.lfsr.nbits s.drawn, hpos, hmax, ?_⟩
    rw [exec_lfsrRandomize (drawNonzero_of_all_skipped hskipped)]
    rfl

/-! ### The feedback bit (R178) -/

/-- FB(S, T) as a bit: bit 0 of the state XOR its bits at the taps. -/
def feedbackBit (v : Word) (ts : List Nat) : Bool := ts.foldl (fun b t => b ^^ v.getLsbD t) (v.getLsbD 0)

theorem foldl_xor_ushiftRight_getLsbD (v acc : Word) (ts : List Nat) :
    (ts.foldl (fun acc t => acc ^^^ v >>> t) acc).getLsbD 0
      = ts.foldl (fun b t => b ^^ v.getLsbD t) (acc.getLsbD 0) := by
  induction ts generalizing acc with
  | nil => rfl
  | cons t ts ih =>
    rw [List.foldl_cons, List.foldl_cons, ih, BitVec.getLsbD_xor, BitVec.getLsbD_ushiftRight, Nat.add_zero]

theorem and_one_toNat (v : Word) : (v &&& 1).toNat = v.toNat % 2 := by
  rw [BitVec.toNat_and]
  exact Nat.and_one_is_mod v.toNat

theorem feedback_eq (v : Word) (ts : List Nat) : feedback v ts = BitVec.ofNat 32 (feedbackBit v ts).toNat := by
  rw [feedbackBit, ← foldl_xor_ushiftRight_getLsbD, feedback]
  apply BitVec.eq_of_toNat_eq
  rw [and_one_toNat, BitVec.toNat_ofNat, BitVec.getLsbD, Nat.toNat_testBit]
  omega

/-- Two XOR folds over bits that agree differ exactly where their first values do. -/
theorem foldl_xor_eq_iff {f g : Nat → Bool} {ts : List Nat} (h : ∀ t ∈ ts, f t = g t) (a b : Bool) :
    ts.foldl (fun x t => x ^^ f t) a = ts.foldl (fun x t => x ^^ g t) b ↔ a = b := by
  induction ts generalizing a b with
  | nil => rfl
  | cons t ts ih =>
    obtain ⟨ht, hts⟩ := List.forall_mem_cons.mp h
    rw [List.foldl_cons, List.foldl_cons, ih hts, ht, Bool.xor_left_inj]

/-- Where two states agree at the taps, the feedback bit tells their bits 0 apart. -/
theorem feedbackBit_eq_iff {v w : Word} {ts : List Nat} (h : ∀ t ∈ ts, v.getLsbD t = w.getLsbD t) :
    feedbackBit v ts = feedbackBit w ts ↔ v.getLsbD 0 = w.getLsbD 0 := foldl_xor_eq_iff h _ _

/-- The XOR over the taps is the XOR over rule bits 0 to 7, each with the state bit one place above it. -/
theorem feedbackBit_taps (v : Word) (rule : Nat) :
    feedbackBit v (taps rule)
      = (List.range 8).foldl (fun b i => b ^^ (rule.testBit i && v.getLsbD (i + 1))) (v.getLsbD 0) := by
  rw [feedbackBit, taps, List.foldl_map, List.foldl_filter]
  congr 1
  funext b i
  cases rule.testBit i <;> simp

/-! ### One advance, bit by bit (R177) -/

section
variable {n : Nat} {v : Word}

/-- The feedback bit takes position n - 1; every other bit comes from one place above, where a state of n bits has 0 from
position n on. -/
theorem lfsrNext_getLsbD (rule : Nat) (hn : 1 ≤ n) (hn32 : n ≤ 32) (hv : v.toNat < 2 ^ n) (j : Nat) :
    (lfsrNext v n rule).getLsbD j = if j = n - 1 then feedbackBit v (taps rule) else v.getLsbD (j + 1) := by
  have hbit (k : Nat) : (BitVec.ofNat 32 (feedbackBit v (taps rule)).toNat).getLsbD k
      = (decide (k = 0) && feedbackBit v (taps rule)) := by
    cases feedbackBit v (taps rule) <;> simp
  rw [lfsrNext, feedback_eq, BitVec.getLsbD_or, BitVec.getLsbD_ushiftRight, BitVec.getLsbD_shiftLeft, hbit,
    Nat.add_comm 1 j]
  by_cases htop : j = n - 1
  · have habove : v.getLsbD (j + 1) = false := getLsbD_eq_false_of_ring_le hv (by omega)
    have hj : j < 32 := by omega
    simp [htop ▸ habove, htop ▸ hj, htop]
  · have hother : j < n - 1 ∨ ¬ j - (n - 1) = 0 := by omega
    rcases hother with hlow | hhigh
    · simp [htop, hlow]
    · simp [htop, hhigh]

/-- R179(a): bits 1 to n - 1 stand in the new state as they were, and with them the feedback bit gives bit 0. -/
theorem lfsrNext_injective {w : Word} {rule : Nat} (hn : 1 ≤ n) (hn32 : n ≤ 32) (hrule : checkRule rule n = none)
    (hv : v.toNat < 2 ^ n) (hw : w.toNat < 2 ^ n) (h : lfsrNext v n rule = lfsrNext w n rule) : v = w := by
  have hbits (j : Nat) := congrArg (·.getLsbD j) h
  simp only [lfsrNext_getLsbD rule hn hn32 hv, lfsrNext_getLsbD rule hn hn32 hw] at hbits
  have hkept (j : Nat) (hj : 1 ≤ j) (hjn : j ≤ n - 1) : v.getLsbD j = w.getLsbD j := by
    have hne : j - 1 ≠ n - 1 := by omega
    have hj' := hbits (j - 1)
    rwa [if_neg hne, if_neg hne, Nat.sub_add_cancel hj] at hj'
  obtain ⟨-, -, htaps⟩ := of_checkRule_eq_none hrule
  have hzero : v.getLsbD 0 = w.getLsbD 0 := by
    have hfeed := hbits (n - 1)
    rw [if_pos rfl, if_pos rfl] at hfeed
    exact (feedbackBit_eq_iff fun t ht => hkept t (one_le_of_mem_taps ht) (htaps t ht)).mp hfeed
  apply BitVec.eq_of_getLsbD_eq
  intro j _
  rcases Nat.eq_zero_or_pos j with rfl | hpos
  · exact hzero
  · rcases Nat.lt_or_ge j n with hlt | hge
    · exact hkept j hpos (by omega)
    · rw [getLsbD_eq_false_of_ring_le hv hge, getLsbD_eq_false_of_ring_le hw hge]

/-- XOR of zeros is 0. -/
theorem lfsrNext_zero (rule : Nat) (hn : 1 ≤ n) (hn32 : n ≤ 32) : lfsrNext 0 n rule = 0 := by
  have hfeed (ts : List Nat) : feedbackBit 0 ts = false := by simp [feedbackBit]
  apply BitVec.eq_of_getLsbD_eq
  intro j _
  rw [lfsrNext_getLsbD rule hn hn32 (by simp), hfeed]
  simp

theorem lfsrNext_eq_zero_iff {rule : Nat} (hn : 1 ≤ n) (hn32 : n ≤ 32) (hrule : checkRule rule n = none)
    (hv : v.toNat < 2 ^ n) : lfsrNext v n rule = 0 ↔ v = 0 := by
  constructor
  · intro h
    exact lfsrNext_injective hn hn32 hrule hv (by simp) (h.trans (lfsrNext_zero rule hn hn32).symm)
  · rintro rfl
    exact lfsrNext_zero rule hn hn32

/-- With no tap the feedback bit is bit 0. -/
theorem lfsrNext_of_no_tap {rule : Nat} (h : taps rule = []) : lfsrNext v n rule = ringDown v n := by
  rw [lfsrNext, h]
  rfl

/-- A rotation right as arithmetic: bit 0 leaves at the bottom and comes back with the weight of bit n - 1. -/
theorem ringDown_toNat (hn : 1 ≤ n) (hn32 : n ≤ 32) (hv : v.toNat < 2 ^ n) :
    (ringDown v n).toNat = v.toNat / 2 + v.toNat % 2 * 2 ^ (n - 1) := by
  have hpow : 2 ^ n = 2 * 2 ^ (n - 1) := by rw [← pow_succ', Nat.sub_add_cancel hn]
  have hle : 2 ^ n ≤ 2 ^ 32 := Nat.pow_le_pow_right (by norm_num) hn32
  have hlow : v.toNat / 2 < 2 ^ (n - 1) := by omega
  have htop : v.toNat % 2 * 2 ^ (n - 1) < 2 ^ 32 := by
    calc v.toNat % 2 * 2 ^ (n - 1) ≤ 1 * 2 ^ (n - 1) := Nat.mul_le_mul_right _ (by omega)
      _ < 2 ^ 32 := by have := Nat.two_pow_pos (n - 1); omega
  rw [ringDown, BitVec.toNat_or, BitVec.toNat_ushiftRight, Nat.shiftRight_eq_div_pow, pow_one, BitVec.toNat_shiftLeft,
    and_one_toNat, Nat.shiftLeft_eq, Nat.mod_eq_of_lt htop, Nat.mul_comm, Nat.or_comm,
    ← Nat.two_pow_add_eq_or_of_lt hlow, Nat.add_comm]

end

/-- Settles O38: `lfsrNext_getLsbD` below, at and above position N - 1. -/
theorem lfsrAdvanceEffect : Obligations.LfsrAdvanceEffect := by
  unfold Obligations.LfsrAdvanceEffect
  intro s hlo hhi hv
  have hbit := lfsrNext_getLsbD s.lfsr.rule.toNat (by omega) hhi hv
  refine ⟨lfsrNext s.lfsr.state s.lfsr.nbits s.lfsr.rule.toNat, rfl, fun j hj => ?_, ?_, fun j hj => ?_⟩
  · exact (hbit j).trans (if_neg (by omega))
  · exact (hbit _).trans ((if_pos rfl).trans (feedbackBit_taps _ _))
  · exact getLsbD_eq_false_of_ring_le (lfsrNext_lt _ (by omega) hv) hj

/-- Settles O39: the advance keeps the finite set of states and is one to one on it. -/
theorem lfsrAdvanceIsBijection : Obligations.LfsrAdvanceIsBijection := by
  unfold Obligations.LfsrAdvanceIsBijection
  intro n rule hlo hhi hrule
  have hn : 1 ≤ n := by omega
  refine ((Set.toFinite _).injOn_iff_bijOn_of_mapsTo fun v hv => ?mapsTo).mp fun v hv w hw h => ?injOn
  case mapsTo => exact lfsrNext_lt rule hn hv
  case injOn => exact lfsrNext_injective hn hhi hrule hv hw h

/-- Settles O40: 0 goes to 0, and so no other state does; with no tap an advance is a rotation. -/
theorem lfsrZeroAndRotationLaws : Obligations.LfsrZeroAndRotationLaws := by
  unfold Obligations.LfsrZeroAndRotationLaws
  intro n rule v hlo hhi hrule hv
  refine ⟨lfsrNext_eq_zero_iff (by omega) hhi hrule hv, fun hlow => ?_⟩
  rw [lfsrNext_of_no_tap (taps_eq_nil hlow), ringDown_toNat (by omega) hhi hv]

/-! ### LFSR_SAVED over commands and accesses (R43, R176) -/

/-- The answer is a next state with LFSR_SAVED as it was in s. -/
def LeavesSaved (s : State) (o : Answer) : Prop := ∃ t, o = .next t ∧ t.lfsr.saved = s.lfsr.saved

theorem exec_leavesSaved {i : Instr} (s : State) (hset : i ≠ .lfsrSetState) (hinit : ∀ n, i ≠ .lfsrInit n) :
    LeavesSaved s (exec i s) := by
  obtain ⟨t, ht⟩ := exec_eq_next i s
  exact ⟨t, ht, exec_saved i s t ht hset hinit⟩

theorem execTimes_leavesSaved {i : Instr} (hset : i ≠ .lfsrSetState) (hinit : ∀ n, i ≠ .lfsrInit n) (count : Nat)
    (s : State) : LeavesSaved s (execTimes i count s) := by
  induction count generalizing s with
  | zero => exact ⟨s, rfl, rfl⟩
  | succ count ih =>
    obtain ⟨t, ht, hsaved⟩ := exec_leavesSaved s hset hinit
    obtain ⟨u, hu, hsaved'⟩ := ih t
    exact ⟨u, by rw [execTimes, ht]; exact hu, hsaved'.trans hsaved⟩

theorem execute_leavesSaved {w : Word} (s : State) (hset : decode w ≠ .ok .lfsrSetState)
    (hinit : ∀ n, decode w ≠ .ok (.lfsrInit n)) : LeavesSaved s (execute w s) := by
  cases hw : decode w with
  | ok i =>
    rw [hw] at hset hinit
    rw [execute_ok w i s hw]
    exact exec_leavesSaved s (fun h => hset (congrArg _ h)) (fun n h => hinit n (congrArg _ h))
  | error e =>
    rw [execute_error w e s hw]
    exact ⟨_, rfl, congrArg _ (raise_lfsr .illegalCommand s)⟩

/-- A host write reaches the LFSR unit through CMD alone. -/
theorem writeReg_leavesSaved {r : Reg} {v : Word} (s : State) (hcmd : r = .cmd → LeavesSaved s (execute v s)) :
    LeavesSaved s (writeReg r v s) := by
  cases r
  case cmd => exact hcmd rfl
  all_goals exact ⟨_, rfl, rfl⟩

theorem writeWindow_leavesSaved {off : BitVec 8} {v : Word} (s : State)
    (hcmd : off = 0x00 → LeavesSaved s (execute v s)) : LeavesSaved s (writeWindow off v s) := by
  cases hr : Reg.ofOffset? off.toNat with
  | none => exact ⟨s, writeWindow_unlisted v s hr, rfl⟩
  | some r =>
    rw [writeWindow_listed v s hr]
    refine writeReg_leavesSaved s fun hcmd' => hcmd ?_
    have hoffset : r.offset = off.toNat := ofOffset?_eq_some.mp hr
    rw [hcmd'] at hoffset
    exact BitVec.eq_of_toNat_eq hoffset.symm

theorem eq_cmdWrite {a : Access} (ha : a.admitted = true) (hw : a.write = true) (hoff : a.off = 0x00) :
    a = cmdWrite a.data := by
  obtain ⟨hbe, -⟩ := (admitted_iff a).mp ha
  rw [cmdWrite, ← hw, ← hoff, ← hbe]

theorem serve_leavesSaved {a : Access} (s : State) (h : keepsSaved (.access a)) : LeavesSaved s (serve a s) := by
  obtain ⟨b, hb, hkeeps⟩ := h
  obtain rfl : a = b := Event.access.inj hb
  cases ha : a.admitted
  · exact ⟨_, serve_refused a s ha, rfl⟩
  · cases hw : a.write
    · exact ⟨_, serve_read a s ha hw, rfl⟩
    · obtain ⟨t, ht, hsaved⟩ : LeavesSaved s (writeWindow a.off a.data s) := by
        refine writeWindow_leavesSaved s fun hoff => ?_
        obtain ⟨hset, hinit⟩ := hkeeps a.data (eq_cmdWrite ha hw hoff)
        exact execute_leavesSaved s hset hinit
      refine ⟨respond .writeOk t, ?_, hsaved⟩
      rw [serve_write a s ha hw, ht]
      rfl

/-- One step over an access that keeps LFSR_SAVED: the event is consumed and the register stays. -/
theorem step_leavesSaved {s : State} {e : Event} {es : List Event} (hs : s.events = e :: es) (h : keepsSaved e) :
    ∃ t, step s = .next t ∧ t.lfsr.saved = s.lfsr.saved ∧ t.events = es := by
  have ⟨a, ha, _⟩ := h
  subst ha
  obtain ⟨t, ht, hsaved⟩ := serve_leavesSaved { s with events := es } h
  obtain ⟨hevents, -⟩ := serve_responds ht
  exact ⟨t, (step_access hs).trans ht, hsaved, hevents⟩

/-! ### LFSR_RESET_STATE (R176) -/

theorem exec_lfsrResetState (s : State) :
    exec .lfsrResetState s = .next { s with status := 0, lfsr := { s.lfsr with state := s.lfsr.saved } } := rfl

/-- The CMD write of LFSR_RESET_STATE gives back the saved state. -/
theorem step_lfsrResetState {s : State} {es : List Event} (hs : s.events = .access (cmdWrite 0x24000000) :: es) :
    ∃ t, step s = .next t ∧ t.status = 0 ∧ t.lfsr.state = s.lfsr.saved ∧ t.lfsr.saved = s.lfsr.saved
      ∧ t.events = es := by
  have hdecode : decode 0x24000000 = .ok .lfsrResetState := decode_of_match .lfsrResetState rfl
  rw [step_access hs, serve_cmdWrite, execute_ok _ _ _ hdecode, exec_lfsrResetState]
  exact ⟨_, rfl, rfl, rfl, rfl, rfl⟩

/-- Whatever accesses come first, LFSR_RESET_STATE gives back the value saved before them, so long as each of them keeps
it. -/
theorem restoresSaved_saved (s : State) : restoresSaved s s.lfsr.saved := by
  intro before after hkeeps
  induction before generalizing s with
  | nil =>
    obtain ⟨t, ht, hend⟩ := step_lfsrResetState (s := { s with events := .access (cmdWrite 0x24000000) :: after }) rfl
    exact ⟨t, by rw [List.length_nil, List.nil_append, stepTimes, ht]; rfl, hend⟩
  | cons e before ih =>
    obtain ⟨he, hbefore⟩ := List.forall_mem_cons.mp hkeeps
    let rest := before ++ .access (cmdWrite 0x24000000) :: after
    obtain ⟨t, ht, hsaved, hevents⟩ := step_leavesSaved (s := { s with events := e :: rest }) rfl he
    obtain ⟨u, hu, hend⟩ := ih t hbefore
    have hconsumed : { t with events := rest } = t := by rw [← hevents]
    rw [hconsumed] at hu
    rw [hsaved] at hend
    exact ⟨u, by rw [List.length_cons, List.cons_append, stepTimes, ht]; exact hu, hend⟩

theorem restoresSaved_of_saved {s : State} {v : Word} (h : s.lfsr.saved = v) : restoresSaved s v :=
  h ▸ restoresSaved_saved s

/-- LFSR_SET_STATE of a value that fits saves that value. -/
theorem exec_lfsrSetState_saves {s : State} (h : s.arg0.toNat < 2 ^ s.lfsr.nbits) :
    ∃ t, exec .lfsrSetState s = .next t ∧ t.lfsr.saved = s.arg0 := ⟨_, rfl, lowBits_of_lt s.arg0 _ h⟩

theorem raise_status_ne_zero (e : ErrorCode) (s : State) : (raise e s).status ≠ 0 := by
  rw [raise_status]
  cases e <;> decide

/-- LFSR_INIT that ends OK has saved its initial state. -/
theorem exec_lfsrInit_saves {n : Nat} {s t : State} (h : exec (.lfsrInit n) s = .next t) (hok : t.status = 0) :
    t.lfsr.saved = s.arg0 := by
  have hraise (e : ErrorCode) (he : exec (.lfsrInit n) s = .next (raise e s)) : False :=
    raise_status_ne_zero e s (Host.Outcome.next.inj (he.symm.trans h) ▸ hok)
  by_cases hwidth : n < 2 ∨ 32 < n
  · exact (hraise _ (exec_lfsrInit_badWidth hwidth)).elim
  · by_cases hinit : s.arg0 = 0 ∨ 2 ^ n ≤ s.arg0.toNat
    · exact (hraise _ (exec_lfsrInit_badState hwidth hinit)).elim
    · cases hrule : checkRule s.arg1.toNat n with
      | none =>
        obtain rfl := Host.Outcome.next.inj ((exec_lfsrInit_ok hwidth hinit hrule).symm.trans h)
        rfl
      | some e => exact (hraise e (exec_lfsrInit_badRule hwidth hinit hrule)).elim

/-- Settles O37: each of the three origins of R176 leaves its value in LFSR_SAVED, and from there `restoresSaved_saved`
carries it over the accesses in between. -/
theorem lfsrResetStateEffect : Obligations.LfsrResetStateEffect := by
  unfold Obligations.LfsrResetStateEffect
  refine ⟨exec_lfsrResetState, ?advances, ?setState, ?init, ?reset⟩
  case advances =>
    intro s count hfits
    obtain ⟨t0, ht0, hsaves⟩ := exec_lfsrSetState_saves hfits
    obtain ⟨t1, ht1, hsaved⟩ := execTimes_leavesSaved (i := .lfsrAdvance) (by simp) (by simp) count t0
    exact ⟨t0, t1, _, ht0, ht1, exec_lfsrResetState t1, hsaved.trans hsaves, hsaved.trans hsaves⟩
  case setState =>
    intro s hfits
    obtain ⟨t, ht, hsaves⟩ := exec_lfsrSetState_saves hfits
    exact ⟨t, ht, restoresSaved_of_saved hsaves⟩
  case init => exact fun n s t h hok => restoresSaved_of_saved (exec_lfsrInit_saves h hok)
  case reset => exact fun s es hs => ⟨_, step_event s .reset es hs, restoresSaved_of_saved rfl⟩

end Sys2Proof.Machine

/-! ### The SEL unit (42_selector.md)

The product rule of R200 is Mathlib's `Nat.choose` (`binomial_eq_choose`). A remainder x below `choose(a, b + 1)` is
`choose(v, b + 1) + y` for a v below a and a y below `choose(v, b)` (`exists_choose_add`), and a round of the loop of
R201 finds this v and goes on with y (`combinationLoop_cons`). The laws of R204 and R205 are inductions on the rounds
over this one equation. -/

namespace Sys2Proof.Machine

/-! ### The number of subsets (R200) -/

theorem binomial_eq_choose (n k : Nat) : binomial n k = n.choose k := by
  induction k with
  | zero => rw [binomial, Nat.choose_zero_right]
  | succ k ih => rw [binomial, ih, ← Nat.choose_succ_right_eq, Nat.mul_div_cancel _ k.succ_pos]

/-- Up to `SEL_NMAX` elements, the largest number of subsets is that of the 16-subsets of 32 (R200). -/
theorem choose_le_of_le_selNMax {n : Nat} (k : Nat) (hn : n ≤ 32) : n.choose k ≤ 601080390 :=
  calc n.choose k ≤ Nat.choose 32 k := Nat.choose_le_choose k hn
    _ ≤ Nat.choose 32 (32 / 2) := Nat.choose_le_middle k 32
    _ = 601080390 := by decide

/-- Settles O41, by the laws of `Nat.choose`. -/
theorem binomialIsSubsetCount : Obligations.BinomialIsSubsetCount := by
  unfold Obligations.BinomialIsSubsetCount
  intro n k
  simp only [binomial_eq_choose]
  exact ⟨Nat.choose_eq_zero_of_lt, Nat.choose_eq_factorial_div_factorial, choose_le_of_le_selNMax k, by decide,
    Nat.choose_zero_right n, Nat.choose_self n, Nat.choose_one_right n⟩

/-! ### The search of R201 -/

/-- The search stops at the v whose number of subsets is the last not above x. -/
theorem searchDown_eq {b x v top : Nat} (htop : v ≤ top) (hle : v.choose b ≤ x) (hlt : x < (v + 1).choose b) :
    searchDown b x top = v := by
  induction top with
  | zero => exact (Nat.le_zero.mp htop).symm
  | succ top ih =>
    rw [searchDown, binomial_eq_choose]
    rcases Nat.eq_or_lt_of_le htop with rfl | hbelow
    · rw [if_neg (Nat.not_lt.mpr hle)]
    · have habove : x < (top + 1).choose b := hlt.trans_le (Nat.choose_le_choose b hbelow)
      rw [if_pos habove, ih (Nat.le_of_lt_succ hbelow)]

/-- One step of the combinatorial number system. -/
theorem exists_choose_add {a b x : Nat} (h : x < a.choose (b + 1)) :
    ∃ v < a, ∃ y < v.choose b, x = v.choose (b + 1) + y := by
  induction a with
  | zero => simp at h
  | succ a ih =>
    by_cases hx : x < a.choose (b + 1)
    · obtain ⟨v, hv, hrest⟩ := ih hx
      exact ⟨v, Nat.lt_succ_of_lt hv, hrest⟩
    · rw [Nat.choose_succ_succ'] at h
      exact ⟨a, Nat.lt_succ_self a, x - a.choose (b + 1), by omega, by omega⟩

/-! ### The loop of R201 -/

/-- One round: the search finds v, and the remainder goes on below it. -/
theorem combinationLoop_cons (n : Nat) {a b v y : Nat} (hv : v < a) (hy : y < v.choose b) :
    combinationLoop n (b + 1) a (v.choose (b + 1) + y) = (n - 1 - v) :: combinationLoop n b v y := by
  have hnext : v.choose (b + 1) + y < (v + 1).choose (b + 1) := by rw [Nat.choose_succ_succ']; omega
  have hsearch : searchDown (b + 1) (v.choose (b + 1) + y) (a - 1) = v :=
    searchDown_eq (Nat.le_sub_one_of_lt hv) (Nat.le_add_right _ _) hnext
  simp only [combinationLoop, hsearch, binomial_eq_choose, Nat.add_sub_cancel_left]

theorem combinationLoop_length (n b a x : Nat) : (combinationLoop n b a x).length = b := by
  induction b generalizing a x with
  | zero => rfl
  | succ b ih => simp only [combinationLoop, List.length_cons, ih]

section
variable {n a b x : Nat}

/-- Every entry lies in the last a places of the n. -/
theorem mem_combinationLoop (ha : a ≤ n) (hx : x < a.choose b) {e : Nat} (he : e ∈ combinationLoop n b a x) :
    n - a ≤ e ∧ e < n := by
  induction b generalizing a x with
  | zero => cases he
  | succ b ih =>
    obtain ⟨v, hv, y, hy, rfl⟩ := exists_choose_add hx
    rw [combinationLoop_cons n hv hy, List.mem_cons] at he
    rcases he with rfl | he
    · omega
    · have htail := ih (hv.le.trans ha) hy he
      omega

theorem combinationLoop_increasing (ha : a ≤ n) (hx : x < a.choose b) :
    (combinationLoop n b a x).Pairwise (· < ·) := by
  induction b generalizing a x with
  | zero => exact .nil
  | succ b ih =>
    obtain ⟨v, hv, y, hy, rfl⟩ := exists_choose_add hx
    have hvn : v ≤ n := hv.le.trans ha
    rw [combinationLoop_cons n hv hy]
    refine .cons (fun e he => ?_) (ih hvn hy)
    have htail := mem_combinationLoop hvn hy he
    omega

/-- A larger remainder gives a smaller sequence: its first v is larger, and v stands for index n - 1 - v. -/
theorem combinationLoop_lex {x' : Nat} (ha : a ≤ n) (hlt : x' < x) (hx : x < a.choose b) :
    List.Lex (· < ·) (combinationLoop n b a x) (combinationLoop n b a x') := by
  induction b generalizing a x x' with
  | zero => rw [Nat.choose_zero_right] at hx; omega
  | succ b ih =>
    obtain ⟨v, hv, y, hy, rfl⟩ := exists_choose_add hx
    obtain ⟨v', hv', y', hy', rfl⟩ := exists_choose_add (hlt.trans hx)
    rw [combinationLoop_cons n hv hy, combinationLoop_cons n hv' hy']
    rcases Nat.lt_trichotomy v' v with hless | rfl | hmore
    · exact .rel (by omega)
    · exact .cons (ih (hv.le.trans ha) (by omega) hy)
    · have hgap : v.choose (b + 1) + y < v'.choose (b + 1) :=
        calc v.choose (b + 1) + y < (v + 1).choose (b + 1) := by rw [Nat.choose_succ_succ']; omega
          _ ≤ v'.choose (b + 1) := Nat.choose_le_choose _ hmore
      omega

end

/-- Every increasing sequence of the last a places comes from some remainder: its first index e stands for
v = n - 1 - e, and the rest lies in the last v places. -/
theorem exists_combinationLoop_eq {n a : Nat} (ha : a ≤ n) (l : List Nat) (hinc : l.Pairwise (· < ·))
    (hmem : ∀ e ∈ l, n - a ≤ e ∧ e < n) : ∃ x < a.choose l.length, combinationLoop n l.length a x = l := by
  induction l generalizing a with
  | nil => exact ⟨0, by simp, rfl⟩
  | cons e l ih =>
    obtain ⟨hfirst, hinc⟩ := List.pairwise_cons.mp hinc
    obtain ⟨⟨hlo, hhi⟩, hmem⟩ := List.forall_mem_cons.mp hmem
    have hv : n - 1 - e < a := by omega
    have hrest (j : Nat) (hj : j ∈ l) : n - (n - 1 - e) ≤ j ∧ j < n := by
      have := hfirst j hj
      have := hmem j hj
      omega
    obtain ⟨y, hy, hl⟩ := ih (hv.le.trans ha) hinc hrest
    refine ⟨(n - 1 - e).choose (l.length + 1) + y, ?_, ?_⟩
    · calc _ < (n - 1 - e + 1).choose (l.length + 1) := by rw [Nat.choose_succ_succ']; omega
        _ ≤ a.choose (l.length + 1) := Nat.choose_le_choose _ hv
    · rw [List.length_cons, combinationLoop_cons n hv hy, hl, show n - 1 - (n - 1 - e) = e by omega]

/-- The k + 1 indices from `base` on: `base`, then the k that begin one higher. -/
theorem map_add_range_succ (base k : Nat) :
    (List.range (k + 1)).map (base + ·) = base :: (List.range k).map (base + 1 + ·) := by
  simp [List.range_succ_eq_map, Function.comp_def, Nat.add_assoc, Nat.add_comm 1]

/-- The largest remainder takes the first b of the last a places. -/
theorem combinationLoop_last_remainder {n a b : Nat} (ha : a ≤ n) (hb : b ≤ a) :
    combinationLoop n b a (a.choose b - 1) = (List.range b).map (n - a + ·) := by
  induction b generalizing a with
  | zero => rfl
  | succ b ih =>
    obtain ⟨v, rfl⟩ : ∃ v, a = v + 1 := ⟨a - 1, by omega⟩
    have hbv : b ≤ v := Nat.le_of_succ_le_succ hb
    have hpos : 0 < v.choose b := Nat.choose_pos hbv
    have hx : (v + 1).choose (b + 1) - 1 = v.choose (b + 1) + (v.choose b - 1) := by
      rw [Nat.choose_succ_succ']; omega
    rw [hx, combinationLoop_cons n (Nat.lt_succ_self v) (Nat.sub_one_lt_of_lt hpos), ih (by omega) hbv,
      map_add_range_succ, show n - (v + 1) + 1 = n - v by omega, show n - 1 - v = n - (v + 1) by omega]

/-- The remainder 0 takes the last b places. -/
theorem combinationLoop_zero_remainder {n a b : Nat} (ha : a ≤ n) (hb : b ≤ a) :
    combinationLoop n b a 0 = (List.range b).map (n - b + ·) := by
  induction b generalizing a with
  | zero => rfl
  | succ b ih =>
    have hbn : b ≤ n := by omega
    have hround := combinationLoop_cons n (y := 0) hb (by rw [Nat.choose_self]; exact Nat.one_pos)
    rw [Nat.choose_succ_self] at hround
    rw [hround, ih hbn le_rfl, map_add_range_succ, show n - (b + 1) + 1 = n - b by omega,
      show n - 1 - b = n - (b + 1) by omega]

/-! ### Combinations (R204, R205) -/

/-- The loop starts from the distance of m to the last combination. -/
theorem combination_eq (n k m : Nat) : combination n k m = combinationLoop n k n (n.choose k - 1 - m) := by
  rw [combination, binomial_eq_choose]

theorem combination_length (n k m : Nat) : (combination n k m).length = k := combinationLoop_length n k n _

section
variable {n k m : Nat}

theorem combination_increasing (hm : m < n.choose k) : (combination n k m).Pairwise (· < ·) := by
  rw [combination_eq]
  exact combinationLoop_increasing le_rfl (by omega)

theorem lt_of_mem_combination (hm : m < n.choose k) {e : Nat} (he : e ∈ combination n k m) : e < n := by
  rw [combination_eq] at he
  exact (mem_combinationLoop le_rfl (by omega) he).2

end

/-- Settles O44: m counts down what the loop's remainder counts up, so each law is the loop's at a = n. -/
theorem combinationIsLexicographicBijection : Obligations.CombinationIsLexicographicBijection := by
  unfold Obligations.CombinationIsLexicographicBijection
  refine ⟨fun n k m m' hlt hm' => ?order, fun n k l hlen hinc hmem => ?onto, fun n k hk => ⟨?first, ?last⟩, ?list⟩
  case order =>
    rw [combination_eq, combination_eq]
    exact combinationLoop_lex le_rfl (by omega) (by omega)
  case onto =>
    subst hlen
    obtain ⟨x, hx, hl⟩ := exists_combinationLoop_eq le_rfl l hinc fun e he => ⟨by omega, hmem e he⟩
    refine ⟨n.choose l.length - 1 - x, by omega, ?_⟩
    rw [combination_eq, show n.choose l.length - 1 - (n.choose l.length - 1 - x) = x by omega, hl]
  case first =>
    rw [combination_eq, Nat.sub_zero, combinationLoop_last_remainder le_rfl hk]
    simp
  case last => rw [combination_eq, Nat.sub_self, combinationLoop_zero_remainder le_rfl hk]
  case list => decide

/-! ### The set as a mask (R47) -/

/-- A sum of powers of two has one bit for each entry, since no two entries are equal. -/
theorem selMask_getLsbD {idx : List Nat} (hinc : idx.Pairwise (· < ·)) (hmem : ∀ e ∈ idx, e < 32) (j : Nat) :
    (selMask idx).getLsbD j = decide (j ∈ idx) := by
  have hbit : (idx.map (2 ^ ·)).sum.testBit j = decide (j ∈ idx) := by
    rw [Bool.eq_iff_iff, decide_eq_true_eq, ← Nat.mem_bitIndices, Nat.bitIndices_sum_map_two_pow hinc.sortedLT]
  rw [selMask, BitVec.getLsbD_ofNat, hbit, ← Bool.decide_and]
  exact decide_eq_decide.mpr ⟨And.right, fun hj => ⟨hmem j hj, hj⟩⟩

theorem selMask_combination_getLsbD {n k m : Nat} (hn : n ≤ 32) (hm : m < n.choose k) (j : Nat) :
    (selMask (combination n k m)).getLsbD j = decide (j ∈ combination n k m) :=
  selMask_getLsbD (combination_increasing hm) (fun _ he => (lt_of_mem_combination hm he).trans_le hn) j

/-- Of the numbers below n, an increasing sequence below n holds as many as its length. -/
theorem countP_range_mem {n : Nat} {l : List Nat} (hinc : l.Pairwise (· < ·)) (hmem : ∀ e ∈ l, e < n) :
    (List.range n).countP (fun j => decide (j ∈ l)) = l.length := by
  rw [List.countP_eq_length_filter]
  refine ((List.perm_ext_iff_of_nodup (List.nodup_range.filter _) hinc.sortedLT.nodup).mpr fun j => ?_).length_eq
  simpa using hmem j

/-- Settles O43: the shape is the loop's, and the mask has the bits of the entries. -/
theorem combinationShape : Obligations.CombinationShape := by
  unfold Obligations.CombinationShape
  intro n k m hm
  have hinc := combination_increasing hm
  have hmem (e : Nat) (he : e ∈ combination n k m) : e < n := lt_of_mem_combination hm he
  refine ⟨combination_length n k m, hinc, hmem, fun hn => ?_⟩
  simp only [selMask_combination_getLsbD hn hm]
  refine ⟨(countP_range_mem hinc hmem).trans (combination_length n k m), fun j hj => ?_⟩
  exact decide_eq_false fun hin => Nat.not_lt.mpr hj (hmem j hin)

/-! ### The sequence as bytes (R48) -/

/-- Four bytes in one register, each at its place. -/
theorem idxWord_byte {idx : List Nat} (hbyte : ∀ e, idxByte idx e < 256) (r : Nat) {j : Nat} (hj : j < 4) :
    (idxWord idx r).toNat / 2 ^ (8 * j) % 256 = idxByte idx (4 * r + j) := by
  have h0 := hbyte (4 * r)
  have h1 := hbyte (4 * r + 1)
  have h2 := hbyte (4 * r + 2)
  have h3 := hbyte (4 * r + 3)
  rw [idxWord, BitVec.toNat_ofNat]
  interval_cases j <;> simp only [Nat.reduceMul, Nat.reducePow, Nat.add_zero] <;> omega

theorem selResult_idxReg (u : SelUnit) (n k : Nat) (m : Word) (idx : List Nat) {r : Nat} (hr : r < 8) :
    (selResult u n k m idx).idxReg r = idxWord idx r := by
  interval_cases r <;> rfl

theorem selResult_entry (u : SelUnit) (n k : Nat) (m : Word) {idx : List Nat} (hbyte : ∀ e, idxByte idx e < 256)
    {e : Nat} (he : e < 32) : (selResult u n k m idx).entry e = idxByte idx e := by
  rw [SelUnit.entry, selResult_idxReg u n k m idx (by omega), idxWord_byte hbyte _ (Nat.mod_lt e (by norm_num)),
    Nat.div_add_mod]

theorem idxByte_of_lt {idx : List Nat} {e : Nat} (h : e < idx.length) : idxByte idx e = idx[e] :=
  List.getD_eq_getElem _ _ h

theorem idxByte_of_length_le {idx : List Nat} {e : Nat} (h : idx.length ≤ e) : idxByte idx e = 0xFF :=
  List.getD_eq_default _ _ h

theorem idxByte_lt {idx : List Nat} (hmem : ∀ e ∈ idx, e < 256) (e : Nat) : idxByte idx e < 256 := by
  rcases Nat.lt_or_ge e idx.length with h | h
  · rw [idxByte_of_lt h]; exact hmem _ (List.getElem_mem h)
  · rw [idxByte_of_length_le h]; norm_num

theorem idxByte_eq_ite (idx : List Nat) (e : Nat) :
    idxByte idx e = if e < idx.length then idx.getD e 0 else 0xFF := by
  split
  next h => rw [idxByte_of_lt h, List.getD_eq_getElem _ _ h]
  next h => exact idxByte_of_length_le (Nat.le_of_not_lt h)

/-! ### The commands (R202, R203) -/

section
variable {n k : Nat} {s : State}

theorem exec_selChoose_refused (h : 32 < n ∨ 32 < k) :
    exec (.selChoose n k) s = .next (raise .configError s) := if_pos h

theorem exec_selChoose_accepted (h : n ≤ 32 ∧ k ≤ 32) : exec (.selChoose n k) s
    = .next (finish (s.withSel { s.sel with choose := BitVec.ofNat 32 (n.choose k) })) := by
  have haccepts : ¬ (32 < n ∨ 32 < k) := by omega
  rw [← binomial_eq_choose]
  exact if_neg haccepts

theorem exec_selCombination_refused (h : 32 < n ∨ 32 < k) :
    exec (.selCombination n k) s = .next (raise .configError s) := if_pos h

/-- With n and k at most 32, SEL_COMBINATION goes by the range of m. -/
theorem exec_selCombination_of_le (h : n ≤ 32 ∧ k ≤ 32) : exec (.selCombination n k) s
    = if n.choose k ≤ s.arg0.toNat then .next (raise .selRange s)
      else .next (finish (s.withSel (selResult s.sel n k s.arg0 (combination n k s.arg0.toNat)))) := by
  have haccepts : ¬ (32 < n ∨ 32 < k) := by omega
  rw [← binomial_eq_choose]
  exact if_neg haccepts

end

/-- Settles O42, by the two cases of the fields; the value fits the register by R200. -/
theorem selChooseEffect : Obligations.SelChooseEffect := by
  unfold Obligations.SelChooseEffect
  intro n k s _
  constructor
  · rintro ⟨hn, hk⟩
    have hfits : n.choose k < 2 ^ 32 := (choose_le_of_le_selNMax k hn).trans_lt (by norm_num)
    refine ⟨BitVec.ofNat 32 (n.choose k), ?_, exec_selChoose_accepted ⟨hn, hk⟩⟩
    rw [BitVec.toNat_ofNat, Nat.mod_eq_of_lt hfits]
  · intro h
    rw [exec_selChoose_refused h, raise_configError]

/-- Settles O45: the held registers are `selResult`, whose mask and bytes are those of the combination. -/
theorem selCombinationEffect : Obligations.SelCombinationEffect := by
  unfold Obligations.SelCombinationEffect
  rintro n k s ⟨hn64, hk64⟩
  refine ⟨?success, ?config, ?range⟩
  case success =>
    rintro ⟨hn, hk, hm⟩
    have hbyte (e : Nat) : idxByte (combination n k s.arg0.toNat) e < 256 :=
      idxByte_lt (fun j hj => (lt_of_mem_combination hm hj).trans_le (by omega)) e
    refine ⟨selResult s.sel n k s.arg0 (combination n k s.arg0.toNat), ?_, rfl, ?_, rfl,
      selMask_combination_getLsbD hn hm, fun e he => ?_⟩
    · rw [exec_selCombination_of_le ⟨hn, hk⟩, if_neg (Nat.not_le.mpr hm)]
      rfl
    · simp only [selResult, selCfgWord, Nat.mod_eq_of_lt hn64, Nat.mod_eq_of_lt hk64]
    · rw [selResult_entry _ _ _ _ hbyte he, idxByte_eq_ite, combination_length]
  case config =>
    intro h
    rw [exec_selCombination_refused h, raise_configError]
  case range =>
    rintro ⟨hn, hk, hm⟩
    rw [exec_selCombination_of_le ⟨hn, hk⟩, if_pos hm, raise_selRange]

end Sys2Proof.Machine

/-! ### The PEND unit (43_pendulum.md)

Every bound of the unit goes back to one fact: on the reduced arguments 0 to 2^30 the polynomial of R237 stays in 0 to
1.0 (`sinMagnitude_mem`). At 1.0 it has the value 1.0 and the slope 0 exactly (R236), so its distance to 1.0 carries the
factor `(2^30 - X2)^2` (`sinPolynomial_le`). The floor of X2 is the only one that can raise the value; `2X ≤ X2 + 2^30`
holds in spite of it (`square_floor_bounds`). SIN then follows from the reduced argument, which the symmetries of R239
keep. At rest every term of the numerators has a sine or a velocity as a factor, so DERIVS is zero and a step changes
nothing (`RestsAt.exec_pendAdvance`). -/

namespace Sys2Proof.Machine

/-! ### mul and div (R232, R233) -/

theorem qmul_comm (a b : Int) : qmul a b = qmul b a := by rw [qmul, qmul, mul_comm]

@[simp] theorem qmul_zero (a : Int) : qmul a 0 = 0 := by simp [qmul]

@[simp] theorem zero_qmul (a : Int) : qmul 0 a = 0 := by simp [qmul]

@[simp] theorem zero_qdiv (b : Int) : qdiv 0 b = 0 := by simp [qdiv]

theorem qmul_floor (a b : Int) : qmul a b * 2 ^ 24 ≤ a * b ∧ a * b < (qmul a b + 1) * 2 ^ 24 :=
  ⟨Int.ediv_mul_le _ (by norm_num), Int.lt_ediv_add_one_mul_self _ (by norm_num)⟩

/-- A factor of at most 1.0 in magnitude does not lengthen, the floor included, since the length is an integer. -/
theorem qmul_bounds {a b : Int} (ha : 0 ≤ a) (hlo : -2 ^ 24 ≤ b) (hhi : b ≤ 2 ^ 24) :
    -a ≤ qmul a b ∧ qmul a b ≤ a := by
  constructor
  · exact (Int.le_ediv_iff_mul_le (by norm_num)).mpr (by nlinarith)
  · exact Int.ediv_le_of_le_mul (by norm_num) (mul_le_mul_of_nonneg_left hhi ha)

theorem qdiv_neg (a b : Int) : qdiv (-a) b = -qdiv a b := by rw [qdiv, qdiv, Int.neg_mul, Int.neg_tdiv]

/-- Division of a value that is not negative rounds down. -/
theorem qdiv_of_nonneg {a b : Int} (ha : 0 ≤ a) (hb : 0 < b) :
    0 ≤ qdiv a b ∧ qdiv a b * b ≤ a * 2 ^ 24 ∧ a * 2 ^ 24 < (qdiv a b + 1) * b := by
  have hnum : 0 ≤ a * 2 ^ 24 := by positivity
  rw [qdiv, Int.tdiv_eq_ediv_of_nonneg hnum]
  exact ⟨Int.ediv_nonneg hnum hb.le, Int.ediv_mul_le _ hb.ne', Int.lt_ediv_add_one_mul_self _ hb⟩

/-- Settles O46: mul is a floor; a product of two least values is floored to 0 before a large factor can lift it, so mul
is not associative; and div of a negative value is that of its magnitude negated. -/
theorem mulFloorsAndDivTruncates : Obligations.MulFloorsAndDivTruncates := by
  unfold Obligations.MulFloorsAndDivTruncates
  refine ⟨fun a b => ⟨(qmul_floor a b).1, (qmul_floor a b).2, qmul_comm a b⟩, ⟨1, 1, 2 ^ 48, by decide⟩,
    fun a b hb => ⟨fun ha => qdiv_of_nonneg ha hb, fun ha => ?_⟩⟩
  obtain ⟨hpos, hle, hlt⟩ := qdiv_of_nonneg (Int.neg_nonneg.mpr ha) hb
  rw [qdiv_neg] at hpos hle hlt
  exact ⟨by linarith, by linarith, by linarith⟩

/-! ### The sine polynomial (R235 to R238) -/

theorem sinMagnitude_zero : sinMagnitude 0 = 0 := by decide

section
variable {x : Int}

/-- The square X2 of R237 is at most 1.0, and 2X is at most X2 + 1.0, since `(X - 2^30)^2` is not negative. -/
theorem square_floor_bounds (hlo : 0 ≤ x) (hhi : x ≤ 2 ^ 30) :
    0 ≤ x * x / 2 ^ 30 ∧ x * x / 2 ^ 30 ≤ 2 ^ 30 ∧ 2 * x ≤ x * x / 2 ^ 30 + 2 ^ 30 := by
  have hsq : x * x < (x * x / 2 ^ 30 + 1) * 2 ^ 30 := Int.lt_ediv_add_one_mul_self _ (by norm_num)
  refine ⟨by positivity, Int.ediv_le_of_le_mul (by norm_num) (by nlinarith), ?_⟩
  nlinarith [sq_nonneg (x - 2 ^ 30)]

/-- With `x ≤ (1 + x^2) / 2` for x, the polynomial stays at most 1.0: its coefficients add up to 1.0 and its slope at
1.0 is 0 (R236), so the difference of the two sides is `(2^30 - u)^2` times a positive factor. -/
theorem sinPolynomial_le {u : Int} (hhi : u ≤ 2 ^ 30) :
    (sinC1 * 2 ^ 60 + sinC3 * 2 ^ 30 * u + sinC5 * u ^ 2) * (u + 2 ^ 30) ≤ 2 * 2 ^ 120 := by
  have hfactor : 0 ≤ (2 * 2 ^ 30 - sinC1) * 2 ^ 30 - sinC5 * u := by simp only [sinC1, sinC5]; omega
  have hdiff : 2 * 2 ^ 120 - (sinC1 * 2 ^ 60 + sinC3 * 2 ^ 30 * u + sinC5 * u ^ 2) * (u + 2 ^ 30)
      = (2 ^ 30 - u) ^ 2 * ((2 * 2 ^ 30 - sinC1) * 2 ^ 30 - sinC5 * u) := by
    simp only [sinC1, sinC3, sinC5]; ring
  linarith [mul_nonneg (sq_nonneg (2 ^ 30 - u)) hfactor]

/-- The inner value of R237's polynomial, with its floor. -/
def sinP3 (u : Int) : Int := sinC3 + sinC5 * u / 2 ^ 30

/-- The polynomial of R237 over X2, with its two floors. -/
def sinP1 (u : Int) : Int := sinC1 + sinP3 u * u / 2 ^ 30

theorem sinMagnitude_eq (x : Int) : sinMagnitude x = sinP1 (x * x / 2 ^ 30) * x / 2 ^ 30 / 2 ^ 6 := rfl

section
variable {u : Int} (hlo : 0 ≤ u) (hhi : u ≤ 2 ^ 30)
include hlo hhi

theorem sinP1_nonneg : 0 ≤ sinP1 u := by
  have hinner : sinC3 ≤ sinP3 u := by
    have : 0 ≤ sinC5 * u / 2 ^ 30 := Int.ediv_nonneg (mul_nonneg (by decide) hlo) (by norm_num)
    rw [sinP3]; linarith
  have houter : sinC3 ≤ sinP3 u * u / 2 ^ 30 := by
    rw [Int.le_ediv_iff_mul_le (by norm_num)]
    calc sinC3 * 2 ^ 30 ≤ sinC3 * u := mul_le_mul_of_nonpos_left hhi (by decide)
      _ ≤ sinP3 u * u := mul_le_mul_of_nonneg_right hinner hlo
  have hsum : 0 ≤ sinC1 + sinC3 := by decide
  rw [sinP1]; linarith

/-- The floors only lower the polynomial. -/
theorem sinP1_mul_le : sinP1 u * (u + 2 ^ 30) ≤ 2 * 2 ^ 60 := by
  have hp3 : sinP3 u * 2 ^ 30 ≤ sinC3 * 2 ^ 30 + sinC5 * u := by
    rw [sinP3, add_mul]
    exact Int.add_le_add_left (Int.ediv_mul_le _ (by norm_num)) _
  have hp1 : sinP1 u * 2 ^ 30 ≤ sinC1 * 2 ^ 30 + sinP3 u * u := by
    rw [sinP1, add_mul]
    exact Int.add_le_add_left (Int.ediv_mul_le _ (by norm_num)) _
  have hexact : sinP1 u * 2 ^ 60 ≤ sinC1 * 2 ^ 60 + sinC3 * 2 ^ 30 * u + sinC5 * u ^ 2 := by
    linarith [mul_le_mul_of_nonneg_right hp3 hlo]
  have hscaled := mul_le_mul_of_nonneg_right hexact (by linarith : 0 ≤ u + 2 ^ 30)
  linarith [sinPolynomial_le hhi]

end

/-- The magnitude of R237 lies in 0 to 1.0 on all of the reduced arguments. -/
theorem sinMagnitude_mem (hlo : 0 ≤ x) (hhi : x ≤ 2 ^ 30) : 0 ≤ sinMagnitude x ∧ sinMagnitude x ≤ 2 ^ 24 := by
  obtain ⟨hu, huN, hx⟩ := square_floor_bounds hlo hhi
  have hp := sinP1_nonneg hu huN
  have hprod : sinP1 (x * x / 2 ^ 30) * x ≤ 2 ^ 60 := by
    linarith [mul_le_mul_of_nonneg_left hx hp, sinP1_mul_le hu huN]
  rw [sinMagnitude_eq]
  refine ⟨by positivity, ?_⟩
  omega

end

/-! ### SIN and COS over the turn (R235, R237, R238) -/

theorem quadrant_eq (a : Word) : quadrant a = a.toNat / 2 ^ 30 := by
  simp only [quadrant, bits]; omega

theorem bits_29_0 (a : Word) : bits a 29 0 = a.toNat % 2 ^ 30 := by simp [bits]

/-- The reduced argument is the distance to the nearest half turn. -/
theorem reducedArg_eq (a : Word) : reducedArg a = min (a.toNat % 2 ^ 31) (2 ^ 31 - a.toNat % 2 ^ 31) := by
  rw [reducedArg, quadrant_eq, bits_29_0]
  split <;> omega

theorem reducedArg_le (a : Word) : reducedArg a ≤ 2 ^ 30 := by rw [reducedArg_eq]; omega

theorem qsin_of_lt_half {a : Word} (h : a.toNat < 2 ^ 31) : qsin a = sinMagnitude (reducedArg a) :=
  if_pos (by rw [quadrant_eq]; omega)

theorem qsin_of_half_le {a : Word} (h : 2 ^ 31 ≤ a.toNat) : qsin a = -sinMagnitude (reducedArg a) :=
  if_neg (by rw [quadrant_eq]; omega)

theorem qsin_bounds (a : Word) : -2 ^ 24 ≤ qsin a ∧ qsin a ≤ 2 ^ 24 := by
  obtain ⟨hlo, hhi⟩ := sinMagnitude_mem (Int.natCast_nonneg (reducedArg a)) (mod_cast reducedArg_le a)
  rcases Nat.lt_or_ge a.toNat (2 ^ 31) with h | h
  · rw [qsin_of_lt_half h]; omega
  · rw [qsin_of_half_le h]; omega

theorem qcos_bounds (a : Word) : -2 ^ 24 ≤ qcos a ∧ qcos a ≤ 2 ^ 24 := qsin_bounds _

/-- Settles O48: each is a magnitude of at most 1.0 with a sign. -/
theorem sinIsBounded : Obligations.SinIsBounded := by
  unfold Obligations.SinIsBounded
  intro a
  obtain ⟨hslo, hshi⟩ := qsin_bounds a
  obtain ⟨hclo, hchi⟩ := qcos_bounds a
  exact ⟨hslo, hshi, hclo, hchi⟩

@[simp] theorem qsin_zero : qsin 0 = 0 := by decide

@[simp] theorem qsin_half_turn : qsin 0x80000000 = 0 := by decide

theorem reducedArg_neg (a : Word) : reducedArg (-a) = reducedArg a := by
  simp only [reducedArg_eq, BitVec.toNat_neg]; omega

theorem toNat_half_turn_sub (a : Word) : (0x80000000 - a).toNat = (2 ^ 32 - a.toNat + 2 ^ 31) % 2 ^ 32 :=
  BitVec.toNat_sub _ _

theorem reducedArg_half_turn_sub (a : Word) : reducedArg (0x80000000 - a) = reducedArg a := by
  simp only [reducedArg_eq, toNat_half_turn_sub]; omega

/-- The two angles whose reduced argument is 0 have sine 0, with whichever sign. -/
theorem qsin_of_reducedArg_zero {a : Word} (h : reducedArg a = 0) : qsin a = 0 := by
  unfold qsin; split <;> simp [h, sinMagnitude_zero]

theorem qsin_neg (a : Word) : qsin (-a) = -qsin a := by
  rcases Nat.eq_zero_or_pos (a.toNat % 2 ^ 31) with h0 | hpos
  · have hzero : reducedArg a = 0 := by rw [reducedArg_eq]; omega
    rw [qsin_of_reducedArg_zero hzero, qsin_of_reducedArg_zero ((reducedArg_neg a).trans hzero), neg_zero]
  have hneg : (-a).toNat = 2 ^ 32 - a.toNat := by rw [BitVec.toNat_neg]; omega
  rcases Nat.lt_or_ge a.toNat (2 ^ 31) with h | h
  · rw [qsin_of_lt_half h, qsin_of_half_le (by omega), reducedArg_neg]
  · rw [qsin_of_half_le h, qsin_of_lt_half (by omega), reducedArg_neg, neg_neg]

theorem qsin_half_turn_sub (a : Word) : qsin (0x80000000 - a) = qsin a := by
  rcases Nat.eq_zero_or_pos (a.toNat % 2 ^ 31) with h0 | hpos
  · have hzero : reducedArg a = 0 := by rw [reducedArg_eq]; omega
    rw [qsin_of_reducedArg_zero hzero, qsin_of_reducedArg_zero ((reducedArg_half_turn_sub a).trans hzero)]
  rcases Nat.lt_or_ge a.toNat (2 ^ 31) with h | h
  · rw [qsin_of_lt_half h, qsin_of_lt_half (by rw [toNat_half_turn_sub]; omega), reducedArg_half_turn_sub]
  · rw [qsin_of_half_le h, qsin_of_half_le (by rw [toNat_half_turn_sub]; omega), reducedArg_half_turn_sub]

/-- Settles O47: the values are computed, the symmetries keep the reduced argument and change or keep the half. -/
theorem sinExactValuesAndSymmetries : Obligations.SinExactValuesAndSymmetries := by
  unfold Obligations.SinExactValuesAndSymmetries
  exact ⟨⟨qsin_zero, rfl, qsin_half_turn, rfl, rfl, rfl, rfl, rfl, rfl⟩, fun a => ⟨qsin_neg a, qsin_half_turn_sub a⟩⟩

/-! ### Positions (R249) -/

theorem fitsS32_sext32 (v : Word) : fitsS32 (sext32 v) := by
  have := v.isLt
  simp only [sext32, BitVec.toInt_eq_toNat_cond]
  split <;> omega

/-- What an arm's length bounds from both sides fits in 32 bits. -/
theorem fitsS32_of_bounds {len : Word} {v : Int} (hlo : -sext32 len ≤ v) (hhi : v ≤ sext32 len) : fitsS32 v := by
  obtain ⟨-, hmax⟩ := fitsS32_sext32 len
  constructor <;> omega

/-- Settles O49: neither sine nor cosine exceeds 1.0, so no product with the length exceeds the length. -/
theorem positionsFit : Obligations.PositionsFit := by
  unfold Obligations.PositionsFit
  intro len t hlen
  obtain ⟨hxlo, hxhi⟩ := qmul_bounds hlen.le (qsin_bounds t).1 (qsin_bounds t).2
  obtain ⟨hylo, hyhi⟩ := qmul_bounds hlen.le (qcos_bounds t).1 (qcos_bounds t).2
  have hYlo : -sext32 len ≤ posY len t := by rw [posY]; omega
  have hYhi : posY len t ≤ sext32 len := by rw [posY]; omega
  exact ⟨⟨hxlo, hxhi, fitsS32_of_bounds hxlo hxhi⟩, hYlo, hYhi, fitsS32_of_bounds hYlo hYhi⟩

/-! ### The commands that load the unit (R250 to R253) -/

theorem drawBits_32 (s : State) : drawBits 32 s = takeWord s := by rw [drawBits, lowBits_32]

section
variable {s t u : State} {a b : Word}

theorem exec_pendInit_refused (h : s.arg0.toInt ≤ 0 ∨ s.arg1.toInt ≤ 0 ∨ s.arg2.toInt ≤ 0 ∨ s.arg3.toInt ≤ 0
    ∨ s.arg4.toInt ≤ 0) : exec .pendInit s = .next (raise .configError s) := if_pos h

/-- With five positive values, PEND_INIT takes the next two words as the angles. -/
theorem exec_pendInit_accepted
    (hpos : 0 < s.arg0.toInt ∧ 0 < s.arg1.toInt ∧ 0 < s.arg2.toInt ∧ 0 < s.arg3.toInt ∧ 0 < s.arg4.toInt)
    (h1 : takeWord s = (a, t)) (h2 : takeWord t = (b, u)) :
    exec .pendInit s = .next (finish (u.withPend
      { s.pend with l1 := s.arg0, l2 := s.arg1, m1 := s.arg2, m2 := s.arg3, dt := s.arg4,
                    th1 := a, th2 := b, w1 := 0, w2 := 0 })) := by
  simp only [← not_le, ← not_or] at hpos
  simp only [exec, execPendInit, drawBits_32, h1, h2]
  exact if_neg hpos

theorem exec_pendRandomize (h1 : takeWord s = (a, t)) (h2 : takeWord t = (b, u)) :
    exec .pendRandomize s = .next (finish (u.withPend { s.pend with th1 := a, th2 := b, w1 := 0, w2 := 0 })) := by
  simp only [exec, execPendRandomize, drawBits_32, h1, h2]

/-- A command that takes two words and puts them in its unit: the words are the listed ones as far as they go, and free
ones after that (R98, R17, log 3). -/
theorem twoDraws_by_entropy {o : Answer} {started : Word → Word → PendUnit}
    (h : ∀ {a b t u}, takeWord s = (a, t) → takeWord t = (b, u) → o = .next (finish (u.withPend (started a b)))) :
    (∀ (a b : Word) (ws : List Word), s.entropy = a :: b :: ws →
      o = .next { s with status := 0, entropy := ws, pend := started a b })
    ∧ (∀ a : Word, s.entropy = [a] →
      ∃ b : Word, o = .next { s with status := 0, entropy := [], drawn := s.drawn + 1, pend := started a b })
    ∧ (s.entropy = [] →
      ∃ a b : Word, o = .next { s with status := 0, entropy := [], drawn := s.drawn + 2, pend := started a b }) := by
  refine ⟨fun a b ws hs => ?two, fun a hs => ?one, fun hs => ?none⟩
  case two => exact h (takeWord_of_cons s a (b :: ws) hs) (takeWord_of_cons _ b ws rfl)
  case one => exact ⟨_, h (takeWord_of_cons s a [] hs) (takeWord_of_nil _ rfl)⟩
  case none => exact ⟨_, _, h (takeWord_of_nil s hs) (takeWord_of_nil _ rfl)⟩

end

/-- Settles O50, by the sign of the five values; the accepted case is a command that takes two words. -/
theorem pendInitEffect : Obligations.PendInitEffect := by
  unfold Obligations.PendInitEffect
  refine fun s => ⟨fun h => ?_, fun hpos => twoDraws_by_entropy (exec_pendInit_accepted hpos)⟩
  rw [exec_pendInit_refused h, raise_configError]

/-- Settles O53: a command that takes two words. -/
theorem pendRandomizeEffect : Obligations.PendRandomizeEffect := by
  unfold Obligations.PendRandomizeEffect
  exact fun s => twoDraws_by_entropy exec_pendRandomize

/-- Settles O51: PEND_SET_STATE writes the four registers and ends OK. -/
theorem pendSetStateEffect : Obligations.PendSetStateEffect := by
  unfold Obligations.PendSetStateEffect
  exact fun s => congrArg Host.Outcome.next (finish_eq _)

theorem exec_pendSetDt_refused {s : State} (h : s.arg0.toInt ≤ 0) :
    exec .pendSetDt s = .next (raise .configError s) := if_pos h

theorem exec_pendSetDt_accepted {s : State} (h : 0 < s.arg0.toInt) :
    exec .pendSetDt s = .next (finish (s.withPend { s.pend with dt := s.arg0 })) := if_neg (not_le.mpr h)

/-- Settles O52, by the sign of the step. -/
theorem pendSetDtEffect : Obligations.PendSetDtEffect := by
  unfold Obligations.PendSetDtEffect
  refine fun s => ⟨exec_pendSetDt_accepted, fun h => ?_⟩
  rw [exec_pendSetDt_refused h, raise_configError]

/-! ### DERIVS (R241 to R247) -/

section
variable {p : PendUnit} {th1 th2 : Word} {w1 w2 : Int}

theorem derivs_eq_none (h : den1 (terms p th1 w1 th2 w2) ≤ 0 ∨ den2 (terms p th1 w1 th2 w2) ≤ 0) :
    derivs p th1 w1 th2 w2 = none := if_pos h

theorem derivs_eq_some (h : 0 < den1 (terms p th1 w1 th2 w2) ∧ 0 < den2 (terms p th1 w1 th2 w2)) :
    derivs p th1 w1 th2 w2 = some
      { dth1 := w1, dw1 := qdiv (num1 (terms p th1 w1 th2 w2)) (den1 (terms p th1 w1 th2 w2)),
        dth2 := w2, dw2 := qdiv (num2 (terms p th1 w1 th2 w2)) (den2 (terms p th1 w1 th2 w2)) } :=
  if_neg (by omega)

/-- Where DERIVS answers, the outer two derivatives are the velocities. -/
theorem derivs_velocities {d : Derivs} (h : derivs p th1 w1 th2 w2 = some d) : d.dth1 = w1 ∧ d.dth2 = w2 := by
  by_cases hpos : 0 < den1 (terms p th1 w1 th2 w2) ∧ 0 < den2 (terms p th1 w1 th2 w2)
  · rw [derivs_eq_some hpos] at h
    cases h; exact ⟨rfl, rfl⟩
  · rw [derivs_eq_none (by omega)] at h
    cases h

end

/-- Settles O54: the terms of R241 to R245 are the ones written out. -/
theorem derivsFollowTheEquations : Obligations.DerivsFollowTheEquations := by
  unfold Obligations.DerivsFollowTheEquations
  exact fun _ _ _ _ _ => ⟨derivs_eq_none, derivs_eq_some⟩

/-! ### PEND_DERIVS and PEND_ADVANCE (R254, R255) -/

section
variable {s : State} {d : Derivs}

theorem exec_pendDerivs_degenerate (h : currentDerivs s.pend = none) :
    exec .pendDerivs s = .next (raise .numDegeneracy s) := by simp only [exec, execPendDerivs, h]

/-- Where DERIVS answers, PEND_DERIVS goes by whether the accelerations fit. -/
theorem exec_pendDerivs_of_some (h : currentDerivs s.pend = some d) :
    exec .pendDerivs s = if fitsS32 d.dw1 ∧ fitsS32 d.dw2 then
        .next (finish (s.withPend { s.pend with drvDth1 := s.pend.w1, drvDw1 := wrap32 d.dw1,
                                                drvDth2 := s.pend.w2, drvDw2 := wrap32 d.dw2 }))
      else .next (raise .numOverflow s) := by
  obtain ⟨hd1, hd2⟩ := derivs_velocities h
  simp only [exec, execPendDerivs, h, hd1, hd2, wrap32_sext32, ← not_and_or, ite_not]

theorem exec_pendAdvance_degenerate (h : currentDerivs s.pend = none) :
    exec .pendAdvance s = .next (raise .numDegeneracy s) := by simp only [exec, execPendAdvance, h]

/-- Where DERIVS answers, PEND_ADVANCE goes by whether the new velocities fit. -/
theorem exec_pendAdvance_of_some (h : currentDerivs s.pend = some d) :
    exec .pendAdvance s = if fitsS32 (eulerStep s.pend d).w1 ∧ fitsS32 (eulerStep s.pend d).w2 then
        .next (finish (s.withPend (advanced s.pend (eulerStep s.pend d))))
      else .next (raise .numOverflow s) := by
  simp only [exec, execPendAdvance, h, ← not_and_or, ite_not]

end

/-- Settles O55, by whether DERIVS answers and whether the accelerations fit. -/
theorem pendDerivsEffect : Obligations.PendDerivsEffect := by
  unfold Obligations.PendDerivsEffect
  refine fun s => ⟨fun h => ?_, fun d h => ⟨fun hfits => ?_, fun hover => ?_⟩⟩
  · rw [exec_pendDerivs_degenerate h, raise_numDegeneracy]
  · rw [exec_pendDerivs_of_some h, if_pos hfits]
    rfl
  · rw [exec_pendDerivs_of_some h, if_neg hover, raise_numOverflow]

/-- Settles O56, by whether DERIVS answers and whether the new velocities fit. -/
theorem pendAdvanceEffect : Obligations.PendAdvanceEffect := by
  unfold Obligations.PendAdvanceEffect
  refine fun s => ⟨fun h => ?_, fun d h => ⟨fun hfits => ?_, fun hover => ?_⟩⟩
  · rw [exec_pendAdvance_degenerate h, raise_numDegeneracy]
  · rw [exec_pendAdvance_of_some h]
    exact if_pos hfits
  · rw [exec_pendAdvance_of_some h, ← raise_numOverflow]
    exact if_neg hover

/-! ### The rest positions (R256) -/

/-- DERIVS where nothing moves and no acceleration acts. -/
def Derivs.zero : Derivs := { dth1 := 0, dw1 := 0, dth2 := 0, dw2 := 0 }

/-- With both arms at one angle of sine 0 and no velocity, every product of the numerators has a factor 0. -/
theorem derivs_at_rest {p : PendUnit} {a : Word} (ha : qsin a = 0) (h : derivs p a 0 a 0 ≠ none) :
    derivs p a 0 a 0 = some Derivs.zero := by
  have hn1 : num1 (terms p a 0 a 0) = 0 := by simp [num1, terms, ha]
  have hn2 : num2 (terms p a 0 a 0) = 0 := by simp [num2, terms, ha]
  have hpos : 0 < den1 (terms p a 0 a 0) ∧ 0 < den2 (terms p a 0 a 0) := by
    simpa only [not_or, not_le] using mt derivs_eq_none h
  rw [derivs_eq_some hpos, hn1, hn2, zero_qdiv, zero_qdiv, Derivs.zero]

theorem ang_zero : ang 0 = 0 := by decide

/-- From zero derivatives the Euler step is the old state (R248). -/
theorem eulerStep_zero (p : PendUnit) :
    eulerStep p Derivs.zero = { th1 := p.th1, w1 := sext32 p.w1, th2 := p.th2, w2 := sext32 p.w2 } := by
  simp [eulerStep, Derivs.zero, ang_zero]

/-- Both arms at the angle `a`, no velocity, and constants that pass R246. -/
structure RestsAt (a : Word) (p : PendUnit) : Prop where
  th1 : p.th1 = a
  th2 : p.th2 = a
  w1 : p.w1 = 0
  w2 : p.w2 = 0
  passes : derivs p a 0 a 0 ≠ none

section
variable {a : Word}

theorem RestsAt.currentDerivs_eq_zero {p : PendUnit} (h : RestsAt a p) (ha : qsin a = 0) :
    currentDerivs p = some Derivs.zero := by
  obtain ⟨hth1, hth2, hw1, hw2, hpasses⟩ := h
  rw [currentDerivs, hth1, hth2, hw1, hw2]
  exact derivs_at_rest ha hpasses

/-- An advance at rest ends OK and at rest; it writes no constant, so R246 passes again. -/
theorem RestsAt.exec_pendAdvance {s : State} (h : RestsAt a s.pend) (ha : qsin a = 0) :
    ∃ t, exec .pendAdvance s = .next t ∧ t.status = 0 ∧ t.errflags = s.errflags ∧ RestsAt a t.pend := by
  rw [exec_pendAdvance_of_some (h.currentDerivs_eq_zero ha), eulerStep_zero,
    if_pos ⟨fitsS32_sext32 _, fitsS32_sext32 _⟩]
  exact ⟨_, rfl, rfl, rfl, h.th1, h.th2, (wrap32_sext32 _).trans h.w1, (wrap32_sext32 _).trans h.w2, h.passes⟩

/-- By induction on the number of further advances. -/
theorem RestsAt.execTimes_pendAdvance (ha : qsin a = 0) (count : Nat) {s : State} (h : RestsAt a s.pend) :
    ∃ t, execTimes .pendAdvance (count + 1) s = .next t
      ∧ t.status = 0 ∧ t.errflags = s.errflags ∧ RestsAt a t.pend := by
  induction count generalizing s with
  | zero =>
    obtain ⟨t, ht, hend⟩ := h.exec_pendAdvance ha
    exact ⟨t, by simp only [execTimes, ht], hend⟩
  | succ count ih =>
    obtain ⟨t, ht, -, hflags, hrest⟩ := h.exec_pendAdvance ha
    obtain ⟨u, hu, hstatus, huflags, hurest⟩ := ih hrest
    exact ⟨u, by rw [execTimes, ht]; exact hu, hstatus, huflags.trans hflags, hurest⟩

end

/-- Settles O57: both angles have sine 0, so the position is kept; after reset the denominators are computed. -/
theorem pendulumAtRestStaysAtRest : Obligations.PendulumAtRestStaysAtRest := by
  unfold Obligations.PendulumAtRestStaysAtRest
  have hden1 : den1 (terms PendUnit.reset 0 0 0 0) = 2 ^ 24 := rfl
  have hden2 : den2 (terms PendUnit.reset 0 0 0 0) = 2 ^ 24 := rfl
  refine ⟨fun s a count ha hth1 hth2 hw1 hw2 hpasses => ?_, hden1, hden2, ?_⟩
  · have hsin : qsin a = 0 := by
      rcases ha with rfl | rfl
      · exact qsin_zero
      · exact qsin_half_turn
    obtain ⟨t, ht, hstatus, hflags, ⟨ht1, ht2, hv1, hv2, -⟩⟩ :=
      RestsAt.execTimes_pendAdvance hsin count ⟨hth1, hth2, hw1, hw2, hpasses⟩
    exact ⟨derivs_at_rest hsin hpasses, t, ht, hstatus, hflags, ht1, ht2, hv1, hv2⟩
  · rw [derivs_eq_some (by rw [hden1, hden2]; decide)]
    exact Option.some_ne_none _

end Sys2Proof.Machine

/-! ### The system command (44_system.md)

NOP is the one command of opcode 0. Its format F0 fixes all 32 bits, so of the words with opcode 0 it matches the word 0
alone, and R117 refuses the others for a reserved bit. -/

namespace Sys2Proof

/-- The words below 2^24 are those with opcode 0, which is NOP's. -/
theorem ofCode?_of_lt {w : Word} (h : w.toNat < 2 ^ 24) : Opcode.ofCode? (bits w 31 24) = some .nop := by
  rw [bits_opc, Nat.div_eq_of_lt h]
  rfl

/-- Format F0 has no field: its mask keeps every bit. -/
theorem and_f0_mask (w : Word) : w &&& Format.f0.mask = w := BitVec.and_allOnes

theorem nop_matches_iff {w : Word} : w &&& Opcode.nop.format.mask = Opcode.nop.matchWord ↔ w = 0 :=
  iff_of_eq (congrArg (· = (0 : Word)) (and_f0_mask w))

namespace Machine

theorem exec_nop (s : State) : exec .nop s = .next { s with status := 0 } :=
  congrArg Host.Outcome.next (finish_eq s)

/-- Settles O22: NOP is a bare `finish`, and a word with opcode 0 that is not 0 differs from NOP's row. -/
theorem nopEffect : Obligations.NopEffect := by
  unfold Obligations.NopEffect
  refine ⟨exec_nop, decode_of_match .nop (nop_matches_iff.mpr rfl), fun w hw hne => ?_⟩
  exact decode_of_reserved .nop (ofCode?_of_lt hw) (mt nop_matches_iff.mp hne)

end Machine

end Sys2Proof

/-! ### How commands and steps end (60_exceptions.md R300 to R306, 70_reset_and_hazards.md R340)

A command ends with `finish` or with one `raise` (R300). `exec_ends` says so of the next state, and `raise_eq` says what
the one write of `raise` is for every code at once. -/

namespace Sys2Proof.Machine

/-! ### The results (R301, R306) -/

theorem errorCode_code_bounds (e : ErrorCode) : 1 ≤ e.code ∧ e.code ≤ 6 := by cases e <;> decide

/-- `raise`, for every code at once: a code fits the four bits of RESULT, so STATUS is the code itself. -/
theorem raise_eq (e : ErrorCode) (s : State) :
    raise e s = { s with status := BitVec.ofNat 32 e.code, errflags := s.errflags ||| 1#32 <<< e.code } := by
  have hstatus : statusWord e.code = BitVec.ofNat 32 e.code := by cases e <;> rfl
  rw [raise, hstatus, setFlag, ErrorCode.flag]

theorem raise_status_toNat (e : ErrorCode) (s : State) : (raise e s).status.toNat = e.code := by
  rw [raise_status]
  cases e <;> rfl

theorem zero_mem_possibleResults (i : Instr) : 0 ∈ possibleResults i := by
  cases i <;> exact List.mem_cons_self

/-- A command that ended is a `finish`, or the `raise` of a code that R306 lists for it. -/
theorem exec_ends {i : Instr} {s t : State} (h : exec i s = .next t) :
    (t.status = 0 ∧ t.errflags = s.errflags) ∨ ∃ e : ErrorCode, t = raise e s ∧ e.code ∈ possibleResults i := by
  rcases exec_cases i s with ⟨e, he, hcode⟩ | ⟨ca, lfsr, sel, pend, ws, d, he, -⟩
  · exact .inr ⟨e, Host.Outcome.next.inj (h.symm.trans he), hcode⟩
  · obtain rfl := Host.Outcome.next.inj (he.symm.trans h)
    exact .inl ⟨rfl, rfl⟩

/-- Settles O16: the two ends of `exec_ends`, where `raise_eq` is the precise error; a word that fails decode is the
`raise` of ILLEGAL_COMMAND. -/
theorem commandsEndOkOrPrecisely : Obligations.CommandsEndOkOrPrecisely := by
  unfold Obligations.CommandsEndOkOrPrecisely
  constructor
  case left =>
    intro i s t h
    rcases exec_ends h with hok | ⟨e, rfl, -⟩
    · exact .inl hok
    · obtain ⟨hlo, hhi⟩ := errorCode_code_bounds e
      exact .inr ⟨e.code, hlo, hhi, raise_eq e s⟩
  case right =>
    intro w e s hw
    rw [execute_error w e s hw, raise_eq]
    rfl

/-- Settles O17: the list of every command holds the 0 of `finish`, and `exec_ends` puts the code of a `raise` in it. -/
theorem resultsByCommand : Obligations.ResultsByCommand := by
  unfold Obligations.ResultsByCommand
  constructor
  case left =>
    intro i s t h
    rcases exec_ends h with ⟨hstatus, -⟩ | ⟨e, rfl, hcode⟩
    · rw [hstatus]
      exact zero_mem_possibleResults i
    · rw [raise_status_toNat]
      exact hcode
  case right =>
    intro w e s t hw h
    obtain rfl := Host.Outcome.next.inj ((execute_error w e s hw).symm.trans h)
    exact raise_status_toNat .illegalCommand s

/-! ### The steps that run a command, reset the block or hold it (R89, R340, R313) -/

/-- Settles O6: the step serves the CMD write (`serve_cmdWrite`), and the word is run as the command it decodes to. -/
theorem stepRunsDecodedCommand : Obligations.StepRunsDecodedCommand := by
  unfold Obligations.StepRunsDecodedCommand
  intro w i s t es hs hw ht
  rw [step_access hs, serve_cmdWrite, execute_ok w i _ hw, ht]
  rfl

theorem step_reset {s : State} {es : List Event} (h : s.events = .reset :: es) :
    step s = .next (resetBlock { s with events := es }) := step_event s .reset es h

/-- Settles O58: the reset event is `resetBlock` on the state that has consumed it, and with no event the step is idle. -/
theorem resetKeepsInputsAndIdleStepHolds : Obligations.ResetKeepsInputsAndIdleStepHolds := by
  unfold Obligations.ResetKeepsInputsAndIdleStepHolds
  exact ⟨fun _ _ => step_reset, step_idle⟩

end Sys2Proof.Machine

/-! ### Reset (70_reset_and_hazards.md R340, R341)

`resetBlock_readReg` and `resetBlock_inv` say what reset makes of the registers. The step of an abandoned command is a
reset with one response more, on a state where only the entropy port has moved. -/

namespace Sys2Proof.Machine

/-- Settles O11: the step is `resetBlock` (`step_reset`), which leaves the entropy port as it was. -/
theorem resetEventRestoresRegisters : Obligations.ResetEventRestoresRegisters := by
  unfold Obligations.ResetEventRestoresRegisters
  intro s es hs
  exact ⟨_, step_reset hs, resetBlock_readReg _, resetBlock_inv _, resetBlock_entropy _, resetBlock_drawn _⟩

theorem step_resetDuring {w : Word} {taken : Nat} {s : State} {es : List Event}
    (h : s.events = .resetDuring w taken :: es) : step s = .next (abandon w taken { s with events := es }) :=
  step_event s (.resetDuring w taken) es h

/-- A response goes to the host and is in no register. -/
@[simp] theorem readReg_respond (r : Response) (s : State) (q : Reg) : readReg (respond r s) q = readReg s q := by
  cases q <;> rfl

/-- Taking entropy words consumes no event and answers nothing. -/
theorem takeWords_events (count : Nat) (s : State) :
    (takeWords count s).events = s.events ∧ (takeWords count s).responses = s.responses := by
  obtain ⟨ws, d, h⟩ := takeWords_eq_withEntropy count s
  rw [h]
  exact ⟨withEntropy_events s ws d, withEntropy_responses s ws d⟩

/-- R341: an abandoned command leaves every register at its reset value, whatever it would have written. -/
theorem abandon_readReg (w : Word) (taken : Nat) (s : State) (q : Reg) : readReg (abandon w taken s) q = q.resetValue := by
  rw [abandon, readReg_respond, resetBlock_readReg]

theorem abandon_events (w : Word) (taken : Nat) (s : State) : (abandon w taken s).events = s.events := by
  rw [abandon, respond_events, resetBlock_events, (takeWords_events _ s).1]

theorem abandon_responses (w : Word) (taken : Nat) (s : State) :
    ∃ r : Response, (abandon w taken s).responses = s.responses ++ [r] := by
  rw [abandon, respond_responses, resetBlock_responses, (takeWords_events _ s).2]
  exact ⟨_, rfl⟩

/-- Settles O12: the step is `abandon` (`step_resetDuring`), a reset that adds the response of the stalled write. -/
theorem resetDuringCommandAbandonsIt : Obligations.ResetDuringCommandAbandonsIt := by
  unfold Obligations.ResetDuringCommandAbandonsIt
  intro w taken s es hs
  obtain ⟨r, hresponses⟩ := abandon_responses w taken { s with events := es }
  exact ⟨_, r, step_resetDuring hs, abandon_readReg w taken _, abandon_events w taken _, hresponses⟩

end Sys2Proof.Machine

/-! ### Every step answers (60_exceptions.md R300, R307, R316)

Where a command runs the answer is `exec_eq_next`, a next state for every command. Nothing between `exec` and `step` adds
another outcome: a word that fails decode, an ignored write and a refused access are next states too (log 5, log 12). -/

namespace Sys2Proof.Machine

theorem execute_eq_next (w : Word) (s : State) : ∃ t, execute w s = .next t := by
  cases hw : decode w with
  | ok i =>
    obtain ⟨t, ht⟩ := exec_eq_next i s
    exact ⟨t, (execute_ok w i s hw).trans ht⟩
  | error e => exact ⟨_, execute_error w e s hw⟩

/-- CMD is the only register whose write runs a command. -/
theorem writeReg_eq_next (r : Reg) (v : Word) (s : State) : ∃ t, writeReg r v s = .next t := by
  cases r
  case cmd => exact execute_eq_next v s
  all_goals exact ⟨_, rfl⟩

theorem writeWindow_eq_next (off : BitVec 8) (v : Word) (s : State) : ∃ t, writeWindow off v s = .next t := by
  cases hr : Reg.ofOffset? off.toNat with
  | none => exact ⟨s, writeWindow_unlisted v s hr⟩
  | some r =>
    obtain ⟨t, ht⟩ := writeReg_eq_next r v s
    exact ⟨t, (writeWindow_listed v s hr).trans ht⟩

/-- Admitted or refused, an access is served to a next state (log 5). -/
theorem serve_eq_next (a : Access) (s : State) : ∃ t, serve a s = .next t := by
  cases ha : a.admitted
  · exact ⟨_, serve_refused a s ha⟩
  · cases hw : a.write
    · exact ⟨_, serve_read a s ha hw⟩
    · obtain ⟨u, hu⟩ := writeWindow_eq_next a.off a.data s
      exact ⟨respond .writeOk u, (serve_write a s ha hw).trans ((respondAfter_eq_next _ _ _).mpr ⟨u, hu, rfl⟩)⟩

theorem handle_eq_next (e : Event) (s : State) : ∃ t, handle e s = .next t := by
  cases e with
  | access a => exact serve_eq_next a s
  | reset => exact ⟨resetBlock s, rfl⟩
  | resetDuring w taken => exact ⟨abandon w taken s, rfl⟩

/-- Settles O8: with no event the step is idle (log 1), and any other step is `handle` on the state that has consumed the
event, which answers a next state for every event. -/
theorem stepAlwaysAnswersNext : Obligations.StepAlwaysAnswersNext := by
  unfold Obligations.StepAlwaysAnswersNext
  intro s
  cases hs : s.events with
  | nil => exact ⟨s, step_idle s hs⟩
  | cons e es =>
    obtain ⟨t, ht⟩ := handle_eq_next e { s with events := es }
    exact ⟨t, (step_event s e es hs).trans ht⟩

end Sys2Proof.Machine
